-- ==== Sys2Proof/Config.lean ====
section
/-! DEFINITION. The parameters of SC-AFIFO (00_scope.md R5 to R8) and the free values: what the spec leaves open, as
constants without a body. -/

namespace Sys2Proof

/-- Data width `DW` (00_scope.md R5). -/
abbrev Config.DW : Nat := 8

/-- The default of the index width `AW`, and its value on this hardware (00_scope.md R6: "The value of this hardware is
`AW = 8`"). The block, its operations and its runs take the width as an argument `aw` (Machine/State.lean, `Block aw`;
Machine/Width.lean); the host's names `State`, `exec` and `step` are the block at this value (entry 12). `AW >= 1` is a premise where a claim needs it. Above 8
the indivisible access to a pointer is an assumption of the model (entry 18). -/
abbrev Config.AW : Nat := 8

/-- `DEPTH = 2^AW` slots, for an index width (00_scope.md R6). -/
abbrev Config.depthOf (aw : Nat) : Nat := 2 ^ aw

/-- `MASK = DEPTH - 1`, for an index width (00_scope.md R6). -/
abbrev Config.maskOf (aw : Nat) : Nat := Config.depthOf aw - 1

/-- Usable capacity `USABLE = DEPTH - 1`, for an index width (00_scope.md R7). -/
abbrev Config.usableOf (aw : Nat) : Nat := Config.depthOf aw - 1

/-- `DEPTH` of this hardware. -/
abbrev Config.DEPTH : Nat := Config.depthOf Config.AW

/-- `MASK` of this hardware. -/
abbrev Config.MASK : Nat := Config.maskOf Config.AW

/-- `USABLE` of this hardware. -/
abbrev Config.USABLE : Nat := Config.usableOf Config.AW

/-- FREE VALUE. The byte a slot holds that no PUSH has written since RESET number `resets` (10_state.md R40: "an
unspecified byte", "an arbitrary byte chosen per run"). Arguments: which RESET, which slot. Safe (entry 1). -/
opaque Config.unwrittenSlot : Nat → Nat → BitVec 8

/-- FREE VALUE. The byte RESET number `resets` leaves in `rd_latch` (10_state.md R42, 42_control.md R161: "become
unspecified"). Safe (entry 3). -/
opaque Config.resetLatch : Nat → BitVec 8

end Sys2Proof
end

