-- ==== Sys2Proof/Word.lean ====
section
/-! DEFINITION. The words of SC-AFIFO and the names of its agents. -/

namespace Sys2Proof

/-- A slot value, a pushed byte, `rd_latch`, an `imm8` field: opaque, unsigned (00_scope.md R5). -/
abbrev Byte := BitVec Config.DW

/-- A slot index of width `aw`: `head`, `tail`, `COUNT` (00_scope.md R6 and section 6). -/
abbrev Index (aw : Nat) := BitVec aw

/-- An operation token: 12 bits (30_encoding.md R83). -/
abbrev Token := BitVec 12

/-- Who performs an operation (00_scope.md R9 to R11); `any` is the agent column of NOP (30_encoding.md R85). -/
inductive Agent where
  | producer
  | consumer
  | host
  | any
  deriving DecidableEq, Repr

end Sys2Proof
end

