-- ==== Sys2Proof/Syntax.lean ====
section
/-! DEFINITION. The operations of SC-AFIFO: one constructor per row of spec/opcode_table.json (30_encoding.md R85 for the
seven operations with a token, R93 to R96 for the four pseudo-operations without one). -/

namespace Sys2Proof

/-- The operations.

`gaps` of DRAIN and DRAIN.F are no operand of the text form: they are the PUSH tokens that the schedule places between the
tokens of the expansion (30_encoding.md R93: "which is allowed at every point"; R94). Entry `n` holds the bytes pushed right
after token `n` of the expansion, counted from 0; a missing entry means no PUSH there, and entries past the last gap stand
for no place. `drain []` is DRAIN with nothing in between. DESIGN CHOICE (entry 8), safe.

`f` of PUSH.N is the list of the values `f(0)`, ..., `f(n-1)` of its expression (R96). DESIGN CHOICE (entry 9), safe. -/
inductive Instr where
  /-- NOP, token `0x000`. -/
  | nop
  /-- PUSH imm8, tokens `0x100` to `0x1FF`. -/
  | push (imm8 : Byte)
  /-- POP.S, token `0x200`. -/
  | popS
  /-- POP.R, token `0x300`. -/
  | popR
  /-- POP.A, token `0x400`. -/
  | popA
  /-- POP, token `0x500`. -/
  | pop
  /-- RESET, token `0xF00`. -/
  | reset
  /-- DRAIN, no token of its own. -/
  | drain (gaps : List (List Byte))
  /-- DRAIN.F, no token of its own. -/
  | drainF (gaps : List (List Byte))
  /-- PUSH.S "text": the bytes of the text, escapes already resolved (R95). -/
  | pushS (text : List Byte)
  /-- PUSH.N n, f (R96). -/
  | pushN (n : Nat) (f : List Int)
  deriving DecidableEq, Repr

/-- Which rows have a token of their own (`"pseudo": false` in the table; 30_encoding.md R85). -/
def Instr.isCore : Instr → Bool
  | .nop | .push _ | .popS | .popR | .popA | .pop | .reset => true
  | .drain _ | .drainF _ | .pushS _ | .pushN _ _ => false

/-- The agent column of the opcode table: 30_encoding.md R85, and the pseudo rows. It names the agent whose operation the row
is. Who performs a term of DRAIN or DRAIN.F with PUSH bytes in its gaps is `Instr.performers` (entry 16). -/
def Instr.agent : Instr → Agent
  | .nop => .any
  | .push _ | .pushS _ | .pushN _ _ => .producer
  | .popS | .popR | .popA | .pop | .drain _ | .drainF _ => .consumer
  | .reset => .host

/-- The bytes that the schedule's PUSH tokens store inside an operation (30_encoding.md R93, R94). -/
def Instr.gapPushes : Instr → List Byte
  | .drain gaps | .drainF gaps => gaps.flatten
  | .nop | .push _ | .popS | .popR | .popA | .pop | .reset | .pushS _ | .pushN _ _ => []

/-- The agents whose steps a term is made of; none for NOP, which any agent may perform. A DRAIN or DRAIN.F with PUSH bytes in
its gaps is the consumer's steps and the producer's PUSH steps between them: no one agent performs it. DESIGN CHOICE (entry 16):
the spec names the consumer for DRAIN (41_consumer.md R134) and the producer for every PUSH (30_encoding.md R86), and has no
term for the two together. -/
def Instr.performers (i : Instr) : List Agent :=
  match i.agent with
  | .any => []
  | a => if i.gapPushes = [] then [a] else [a, .producer]

end Sys2Proof
end

