-- ==== Sys2Proof/WellFormed.lean ====
section
/-! DEFINITION. Which terms of Instr are operations of the spec. Every value of every operand is one (30_encoding.md R84:
`imm8` is taken as is), but that PUSH.N must give its expression one value for each of its `n` tokens (R96). -/

namespace Sys2Proof

/-- The form of an operation's operands. -/
def Instr.wellFormed : Instr → Bool
  | .nop | .push _ | .popS | .popR | .popA | .pop | .reset => true
  | .drain _ | .drainF _ | .pushS _ => true
  | .pushN n f => f.length == n

end Sys2Proof
end

