-- ==== Sys2Proof/Decode.lean ====
section
/-! DEFINITION. Decoding of tokens (30_encoding.md R83 to R88), total over the 4096 token values, and the encoder; the
storage form of a token as two bytes (R83). -/

namespace Sys2Proof

/-- Why a token or stored bytes give no operation. -/
inductive DecodeError where
  /-- The `op` field is in `0x6 .. 0xE` (30_encoding.md R87). -/
  | reservedOp (t : Token)
  /-- The `op` takes no operand and `imm8` is not `0x00` (R87). -/
  | reservedImm8 (t : Token)
  /-- Bits 15:12 of a stored token are not zero (R83). -/
  | storagePadding
  /-- Fewer than two bytes are left of a stored schedule (R83). -/
  | truncated
  deriving DecidableEq, Repr

/-- Field `op`, bits 11:8 (30_encoding.md R83). -/
def tokenOp (t : Token) : BitVec 4 := t.extractLsb' 8 4

/-- Field `imm8`, bits 7:0 (30_encoding.md R83), taken as is (R84). -/
def tokenImm8 (t : Token) : Byte := t.extractLsb' 0 8

/-- One row of the opcode map (30_encoding.md R85). -/
structure OpcodeRow where
  pattern : Token
  mask : Token
  /-- The operation, from the `imm8` field. -/
  instr : Byte → Instr

/-- The seven rows of 30_encoding.md R85, in the table's order. -/
def opcodeRows : List OpcodeRow :=
  [ ⟨0x000, 0xFFF, fun _ => .nop⟩,
    ⟨0x100, 0xF00, fun imm8 => .push imm8⟩,
    ⟨0x200, 0xFFF, fun _ => .popS⟩,
    ⟨0x300, 0xFFF, fun _ => .popR⟩,
    ⟨0x400, 0xFFF, fun _ => .popA⟩,
    ⟨0x500, 0xFFF, fun _ => .pop⟩,
    ⟨0xF00, 0xFFF, fun _ => .reset⟩ ]

/-- "A token `t` selects the row with `(t & mask) == match`" (30_encoding.md R85). -/
def OpcodeRow.selects (r : OpcodeRow) (t : Token) : Bool := t &&& r.mask == r.pattern

/-- The operation of a token, or why it is reserved (30_encoding.md R85, R87). -/
def decode (t : Token) : Except DecodeError Instr :=
  match opcodeRows.find? (fun r => r.selects t) with
  | some r => .ok (r.instr (tokenImm8 t))
  | none =>
    if 6 ≤ (tokenOp t).toNat ∧ (tokenOp t).toNat ≤ 14 then .error (.reservedOp t) else .error (.reservedImm8 t)

/-- A token from its fields, `op` in the high bits (30_encoding.md R83). -/
def makeToken (op : BitVec 4) (imm8 : Byte) : Token := op ++ imm8

/-- The token of an operation; a pseudo-operation has none of its own (30_encoding.md R85, R93). -/
def encode : Instr → Option Token
  | .nop => some (makeToken 0x0 0)
  | .push imm8 => some (makeToken 0x1 imm8)
  | .popS => some (makeToken 0x2 0)
  | .popR => some (makeToken 0x3 0)
  | .popA => some (makeToken 0x4 0)
  | .pop => some (makeToken 0x5 0)
  | .reset => some (makeToken 0xF 0)
  | .drain _ | .drainF _ | .pushS _ | .pushN _ _ => none

/-- The storage form: "a 16-bit little-endian word with bits 15:12 zero" (30_encoding.md R83). -/
def storeToken (t : Token) : List Byte := [t.extractLsb' 0 8, (t.extractLsb' 8 4).setWidth 8]

/-- The token of a stored 16-bit word, its low byte and its high byte (30_encoding.md R83). -/
def loadToken (low high : Byte) : Except DecodeError Token :=
  if high.extractLsb' 4 4 = 0 then .ok (high.extractLsb' 0 4 ++ low) else .error .storagePadding

/-- The first operation of a stored schedule, with the bytes left over (30_encoding.md R83, R87). -/
def decodeBytes : List Byte → Except DecodeError (Instr × List Byte)
  | low :: high :: rest =>
    match loadToken low high with
    | .ok t =>
      match decode t with
      | .ok i => .ok (i, rest)
      | .error e => .error e
    | .error e => .error e
  | _ => .error .truncated

/-- The two bytes, low byte first, of a word given as the opcode table numbers its bits, the bits from `nbits` on zero. -/
def tableBytes (nbits w : Nat) : List Byte :=
  let v := w % 2 ^ nbits
  [BitVec.ofNat 8 v, BitVec.ofNat 8 (v / 256)]

/-- The operation the decoder reads from a table row's word. A pseudo row gives no bits at all and has no word
(30_encoding.md R93: "It has no token of its own"). -/
def decodeTableWord (nbits w : Nat) : Option Instr :=
  if nbits = 0 then none
  else
    match decodeBytes (tableBytes nbits w) with
    | .ok (i, _) => some i
    | .error _ => none

end Sys2Proof
end

