-- ==== Sys2Proof/Machine/State.lean ====
section
/-! DEFINITION. The state of SC-AFIFO (10_state.md R20), the events it emits, and the reasons a step can stop. -/

namespace Sys2Proof.Machine

/-- `cphase`, where the consumer stands inside one read (10_state.md R27). -/
inductive Phase where
  /-- No read in progress. -/
  | idle
  /-- `tail` compared with `head` and found different; the slot not read yet. -/
  | sampled
  /-- The slot read into `rd_latch`; `tail` not advanced yet. -/
  | read
  deriving DecidableEq, Repr

/-- The events of the output trace (10_state.md R33). -/
inductive Event where
  /-- A PUSH found FULL. -/
  | overrun
  /-- The byte handed to the Line Decoder by POP.A or POP. -/
  | deliver (b : Byte)
  deriving DecidableEq, Repr

/-- The block raises no fault (60_exceptions.md R182). -/
inductive Fault where
  /-- Named by DRAIN and DRAIN.F for a loop that has not ended within its step budget: "DRAIN may not end"
  (70_reset_and_hazards.md R222). Never raised: with the finite gaps an instruction carries the budget suffices
  (Laws/Consumer.lean, `drainLoop_isSome` and `drainFLoop_isSome`). Safe. -/
  | drainUnfinished
  deriving DecidableEq, Repr

/-- The spec's `refuse(reason)` (00_scope.md section 7): the token has no meaning in this state and changes nothing. -/
inductive Refusal where
  /-- Raised by exec's arm of an instruction without a meaning; no arm is one. Safe. -/
  | notModelled (mnemonic : String)
  /-- `refuse(reserved_token)`, raised by step on a reserved token (30_encoding.md R88). Safe. -/
  | reservedToken (t : Token)
  /-- `refuse(consumer_phase)`, raised by POP.S, POP.R, POP.A, POP, DRAIN and DRAIN.F outside their phase
  (30_encoding.md R91). Safe. -/
  | consumerPhase
  /-- Raised by every operation but RESET before the first RESET (10_state.md R44). Safe. -/
  | beforeReset
  deriving DecidableEq, Repr

/-- The slots written since the last RESET, as (index, byte) pairs with strictly rising indices. A slot that is not listed
holds a byte the spec does not specify (10_state.md R40). -/
abbrev Memory := List Host.Cell

/-- The block at index width `aw`, an argument of the model (00_scope.md R6, R8; entry 12). The first six fields are the tuple of
10_state.md R20, in its order. Each read or write of `head` or `tail` is one indivisible access at every `aw` (10_state.md R25); the
spec has this at `aw = 8` and asks a model with a wider pointer than a target's word to keep it as an assumption: above 8 it is the
model's DESIGN CHOICE, unsafe (entry 18; 70_reset_and_hazards.md R217). `trace` is the output trace of R33; the last two are the
model's own. -/
structure Block (aw : Nat) where
  /-- The slot array (R21). -/
  mem : Memory
  /-- Next slot to write, producer-owned (R22). -/
  head : Index aw
  /-- Next slot to read, consumer-owned (R23). -/
  tail : Index aw
  /-- Sticky overrun flag (R26). -/
  ovf : Bool
  /-- The consumer's place inside one read (R27). -/
  cphase : Phase
  /-- The byte POP.R or POP read (R28). -/
  rdLatch : Byte
  /-- Output trace since the last RESET, oldest event first (R33, R43; entry 4). -/
  trace : List Event
  /-- MODEL's own: whether a RESET has happened (R44; entry 6). -/
  hadReset : Bool
  /-- MODEL's own: how many RESET operations were performed, the key of the free values (entry 7). -/
  resets : Nat
  deriving DecidableEq, Repr

/-- The state of this hardware: the block at `AW = 8` and the tokens it is to perform. -/
structure State extends Block Config.AW where
  /-- MODEL's own: the tokens still to come (00_scope.md R16; entry 5). -/
  schedule : List Token
  deriving DecidableEq, Repr

/-- The block right after a RESET (10_state.md R38 to R43): slots unspecified, so none listed. `rdLatch` 0 and `resets` 0 are
DESIGN CHOICE (entries 2, 7). -/
def Block.reset (aw : Nat) : Block aw where
  mem := []
  head := 0
  tail := 0
  ovf := false
  cphase := .idle
  rdLatch := 0
  trace := []
  hadReset := true
  resets := 0

/-- The machine right after a RESET, with nothing scheduled (DESIGN CHOICE, entry 5). -/
def State.reset : State where
  toBlock := Block.reset Config.AW
  schedule := []

end Sys2Proof.Machine
end

