-- ==== Sys2Proof/Machine/Ops.lean ====
section
/-! DEFINITION. The named operations over slots, pointers and events, and the guard every operation passes. The block has no
exception entry and no return from one (60_exceptions.md R182); its one signalled condition is `signalOverrun`. -/

namespace Sys2Proof.Machine

variable {aw : Nat}

/-! ### The slot array -/

/-- The byte a PUSH has written to slot `a` since the last RESET, if one has. -/
def memRead : Memory → Nat → Option Byte
  | [], _ => none
  | (b, v) :: m, a => if a = b then some v else memRead m a

/-- Slot `a` takes the byte `v`; the list stays sorted. -/
def memWrite : Memory → Nat → Byte → Memory
  | [], a, v => [(a, v)]
  | (b, w) :: m, a, v =>
    if a < b then (a, v) :: (b, w) :: m
    else if a = b then (a, v) :: m
    else (b, w) :: memWrite m a v

/-- Indices strictly rising from `low` on, all below `depth`. -/
def memRisingFrom (depth : Nat) : Nat → Memory → Bool
  | _, [] => true
  | low, (a, _) :: m => decide (low ≤ a) && decide (a < depth) && memRisingFrom depth (a + 1) m

/-- The canonical form of the slot array at an index width: indices strictly rising and in `0 .. MASK` (20_memory.md R50). -/
def Memory.wfAt (aw : Nat) (m : Memory) : Bool := memRisingFrom (Config.depthOf aw) 0 m

/-- The canonical form of the slot array of this hardware. -/
def Memory.wf (m : Memory) : Bool := Memory.wfAt Config.AW m

/-- `MemRead(i, 1)` (20_memory.md R57): no side effect. A slot that no PUSH has written since the last RESET gives the free
byte of that RESET (10_state.md R40; entry 1). -/
def loadSlot (s : Block aw) (i : Index aw) : Byte :=
  (memRead s.mem i.toNat).getD (Config.unwrittenSlot s.resets i.toNat)

/-- `MemWrite(i, 1, b)` (20_memory.md R57). -/
def storeSlot (s : Block aw) (i : Index aw) (b : Byte) : Block aw := { s with mem := memWrite s.mem i.toNat b }

/-! ### Pointers

A pointer is read whole and written whole (10_state.md R25). At index widths above 8 this is the model's assumption: DESIGN CHOICE,
entry 18. -/

/-- `(x + 1) & MASK`, for any index width (00_scope.md R6, 10_state.md R24). -/
def advance (x : BitVec aw) : BitVec aw := (x + 1) &&& BitVec.allOnes aw

/-- `head <- v`, in one access; above `aw = 8` by the assumption of entry 18. -/
def setHead (s : Block aw) (v : Index aw) : Block aw := { s with head := v }

/-- `tail <- v`, in one access; above `aw = 8` by the assumption of entry 18. -/
def setTail (s : Block aw) (v : Index aw) : Block aw := { s with tail := v }

/-! ### The consumer's own registers -/

/-- `cphase <- p`. -/
def setPhase (s : Block aw) (p : Phase) : Block aw := { s with cphase := p }

/-- `rd_latch <- b`. -/
def setLatch (s : Block aw) (b : Byte) : Block aw := { s with rdLatch := b }

/-! ### Events -/

/-- `emit e`: append the event to the output trace (10_state.md R33). -/
def emit (s : Block aw) (e : Event) : Block aw := { s with trace := s.trace ++ [e] }

/-- The overrun signal: the event first, then the sticky flag (10_state.md R26, 60_exceptions.md R181, R186). -/
def signalOverrun (s : Block aw) : Block aw := { emit s .overrun with ovf := true }

/-! ### The guard of an operation -/

/-- Perform an operation: refused before the first RESET (10_state.md R44), refused outside the phases that admit it
(30_encoding.md R91), else its effect in one step. -/
def perform (admits : Phase → Bool) (effect : Block aw → Block aw) (s : Block aw) : Host.Outcome (Block aw) Fault Refusal :=
  if s.hadReset then
    if admits s.cphase then .next (effect s) else .refused .consumerPhase
  else .refused .beforeReset

/-- As `perform`, for an effect that is a loop with a step budget (70_reset_and_hazards.md R222). -/
def performLoop (admits : Phase → Bool) (effect : Block aw → Option (Block aw)) (s : Block aw) :
    Host.Outcome (Block aw) Fault Refusal :=
  if s.hadReset then
    if admits s.cphase then
      match effect s with
      | some t => .next t
      | none => .fault .drainUnfinished
    else .refused .consumerPhase
  else .refused .beforeReset

/-- Admissible in every phase (30_encoding.md R91: PUSH, NOP). -/
def anyPhase : Phase → Bool := fun _ => true

/-- Admissible only in phase `p` (30_encoding.md R91). -/
def onlyIn (p : Phase) : Phase → Bool := fun q => q == p

/-- An operation of the block, performed in a state: the schedule stays. -/
def onBlock (op : Block Config.AW → Host.Outcome (Block Config.AW) Fault Refusal) (s : State) :
    Host.Outcome State Fault Refusal :=
  match op s.toBlock with
  | .next b => .next { s with toBlock := b }
  | .fault f => .fault f
  | .refused r => .refused r

/-! ### The schedule -/

/-- The next token of the schedule and the state that has it behind; none at the schedule's end (00_scope.md R16). -/
def fetch (s : State) : Option (Token × State) :=
  match s.schedule with
  | [] => none
  | t :: rest => some (t, { s with schedule := rest })

/-- The state with a table row's word as its next token. A word whose bits 15:12 are not zero stores no token
(30_encoding.md R83): then nothing is left to fetch. -/
def placeTableWord (s : State) (nbits w : Nat) : State :=
  match tableBytes nbits w with
  | [low, high] =>
    match loadToken low high with
    | .ok t => { s with schedule := t :: s.schedule }
    | .error _ => { s with schedule := [] }
  | _ => { s with schedule := [] }

end Sys2Proof.Machine
end

