-- ==== Sys2Proof/Machine/Flags.lean ====
section
/-! DEFINITION. The derived values EMPTY, FULL, COUNT and FREE (10_state.md R29 to R32), for any index width (00_scope.md R6)
and of a block. -/

namespace Sys2Proof.Machine

/-- `EMPTY := (head == tail)` (10_state.md R29). -/
def emptyAt {aw : Nat} (head tail : BitVec aw) : Bool := head == tail

/-- `FULL := (((head + 1) & MASK) == tail)` (10_state.md R30). -/
def fullAt {aw : Nat} (head tail : BitVec aw) : Bool := advance head == tail

/-- `COUNT := (head - tail) & MASK` (10_state.md R31). -/
def countAt {aw : Nat} (head tail : BitVec aw) : BitVec aw := (head - tail) &&& BitVec.allOnes aw

/-- `FREE := MASK - COUNT` (10_state.md R32). -/
def freeAt {aw : Nat} (head tail : BitVec aw) : BitVec aw := BitVec.allOnes aw - countAt head tail

/-- EMPTY of a block. -/
def Block.isEmpty {aw : Nat} (s : Block aw) : Bool := emptyAt s.head s.tail

/-- FULL of a block. -/
def Block.isFull {aw : Nat} (s : Block aw) : Bool := fullAt s.head s.tail

/-- COUNT of a block. -/
def Block.count {aw : Nat} (s : Block aw) : Index aw := countAt s.head s.tail

/-- FREE of a block. -/
def Block.free {aw : Nat} (s : Block aw) : Index aw := freeAt s.head s.tail

end Sys2Proof.Machine
end

