-- ==== Sys2Proof/Machine/Operands.lean ====
section
/-! DEFINITION. The operand forms (30_encoding.md R84, R93 to R96). -/

namespace Sys2Proof.Machine

/-- The byte of PUSH: "`imm8` is taken as is" (30_encoding.md R84). -/
def operandByte (imm8 : Byte) : Byte := imm8

/-- The bytes of PUSH.S: one per character, first character first (30_encoding.md R95). -/
def textBytes (text : List Byte) : List Byte := text.map operandByte

/-- `f(i) & 0xFF`, the value taken in the integers and reduced (30_encoding.md R96, 00_scope.md section 6). -/
def lowByte (v : Int) : Byte := BitVec.ofInt 8 v

/-- The bytes of PUSH.N: `n` of them, the `i`-th `f(i) & 0xFF` (30_encoding.md R96). -/
def seriesBytes (n : Nat) (f : List Int) : List Byte := (f.take n).map lowByte

/-- The bytes pushed in gap `n` of an expansion (30_encoding.md R93, R94). -/
def gapBytes (gaps : List (List Byte)) (n : Nat) : List Byte := gaps.getD n []

end Sys2Proof.Machine
end

