-- ==== Sys2Proof/Machine/Producer.lean ====
section
/-! DEFINITION. The producer's operations: PUSH (40_producer.md R110) and its pseudo-operations PUSH.S, PUSH.N
(30_encoding.md R95, R96). -/

namespace Sys2Proof.Machine

variable {aw : Nat}

/-- The one step of PUSH, in the order of 20_memory.md R59: test FULL on the state before, signal, store at `head`, advance
`head` (40_producer.md R110). -/
def pushByte (b : Byte) (s : Block aw) : Block aw :=
  let signalled := if s.isFull then signalOverrun s else s
  let stored := storeSlot signalled signalled.head b
  setHead stored (advance stored.head)

/-- PUSH steps, one per byte, in order. -/
def pushBytes (bs : List Byte) (s : Block aw) : Block aw := bs.foldl (fun s b => pushByte b s) s

/-- PUSH imm8 (40_producer.md R110): admissible in every phase, never refused after the first RESET. -/
def pushAt (imm8 : Byte) (s : Block aw) : Host.Outcome (Block aw) Fault Refusal :=
  perform anyPhase (pushByte (operandByte imm8)) s

/-- PUSH of this hardware: `pushAt` at `AW = 8`. -/
def execPush (imm8 : Byte) (s : State) : Host.Outcome State Fault Refusal := onBlock (pushAt imm8) s

/-- PUSH.S "text" (30_encoding.md R95). -/
def pushSAt (text : List Byte) (s : Block aw) : Host.Outcome (Block aw) Fault Refusal :=
  perform anyPhase (pushBytes (textBytes text)) s

/-- PUSH.S of this hardware: `pushSAt` at `AW = 8`. -/
def execPushS (text : List Byte) (s : State) : Host.Outcome State Fault Refusal := onBlock (pushSAt text) s

/-- PUSH.N n, f (30_encoding.md R96). -/
def pushNAt (n : Nat) (f : List Int) (s : Block aw) : Host.Outcome (Block aw) Fault Refusal :=
  perform anyPhase (pushBytes (seriesBytes n f)) s

/-- PUSH.N of this hardware: `pushNAt` at `AW = 8`. -/
def execPushN (n : Nat) (f : List Int) (s : State) : Host.Outcome State Fault Refusal := onBlock (pushNAt n f) s

end Sys2Proof.Machine
end

