-- ==== Sys2Proof/Machine/Consumer.lean ====
section
/-! DEFINITION. The consumer's operations: POP.S, POP.R, POP.A, POP (41_consumer.md R130 to R133) and the pseudo-operations
DRAIN, DRAIN.F (30_encoding.md R93, R94). -/

namespace Sys2Proof.Machine

variable {aw : Nat}

/-- The one step of POP.S: compare `tail` with `head` (41_consumer.md R130). -/
def samplePointers (s : Block aw) : Block aw := setPhase s (if s.isEmpty then .idle else .sampled)

/-- The one step of POP.R: read the slot at `tail` (41_consumer.md R131). -/
def latchSlot (s : Block aw) : Block aw := setPhase (setLatch s (loadSlot s s.tail)) .read

/-- The one step of POP.A: advance `tail` and deliver (41_consumer.md R132). -/
def deliverLatch (s : Block aw) : Block aw :=
  let advanced := setTail s (advance s.tail)
  setPhase (emit advanced (.deliver advanced.rdLatch)) .idle

/-- The one step of POP (41_consumer.md R133). -/
def popByte (s : Block aw) : Block aw :=
  if s.isEmpty then setPhase s .idle
  else
    let b := loadSlot s s.tail
    let latched := setLatch s b
    let advanced := setTail latched (advance latched.tail)
    setPhase (emit advanced (.deliver b)) .idle

/-- POP.S (41_consumer.md R130). -/
def popSAt (s : Block aw) : Host.Outcome (Block aw) Fault Refusal := perform (onlyIn .idle) samplePointers s

/-- POP.S of this hardware: `popSAt` at `AW = 8`. -/
def execPopS (s : State) : Host.Outcome State Fault Refusal := onBlock popSAt s

/-- POP.R (41_consumer.md R131). -/
def popRAt (s : Block aw) : Host.Outcome (Block aw) Fault Refusal := perform (onlyIn .sampled) latchSlot s

/-- POP.R of this hardware: `popRAt` at `AW = 8`. -/
def execPopR (s : State) : Host.Outcome State Fault Refusal := onBlock popRAt s

/-- POP.A (41_consumer.md R132). -/
def popAAt (s : Block aw) : Host.Outcome (Block aw) Fault Refusal := perform (onlyIn .read) deliverLatch s

/-- POP.A of this hardware: `popAAt` at `AW = 8`. -/
def execPopA (s : State) : Host.Outcome State Fault Refusal := onBlock popAAt s

/-- POP (41_consumer.md R133). -/
def popAt (s : Block aw) : Host.Outcome (Block aw) Fault Refusal := perform (onlyIn .idle) popByte s

/-- POP of this hardware: `popAt` at `AW = 8`. -/
def execPop (s : State) : Host.Outcome State Fault Refusal := onBlock popAt s

/-- One round of DRAIN after a POP.S that found a byte: POP.R and POP.A, with the first three gaps filled
(30_encoding.md R93). -/
def drainRound (gaps : List (List Byte)) (s : Block aw) : Block aw :=
  let read := latchSlot (pushBytes (gapBytes gaps 0) s)
  let delivered := deliverLatch (pushBytes (gapBytes gaps 1) read)
  pushBytes (gapBytes gaps 2) delivered

/-- The loop of DRAIN (30_encoding.md R93, 41_consumer.md R134) with a budget of POP.S steps. -/
def drainLoop : Nat → List (List Byte) → Block aw → Option (Block aw)
  | 0, _, _ => none
  | budget + 1, gaps, s =>
    let compared := samplePointers s
    if compared.cphase = .idle then some compared
    else drainLoop budget (gaps.drop 3) (drainRound gaps compared)

/-- The loop of DRAIN.F (30_encoding.md R94) with a budget of POP steps. -/
def drainFLoop : Nat → List (List Byte) → Block aw → Option (Block aw)
  | 0, _, _ => none
  | budget + 1, gaps, s =>
    if s.isEmpty then some (popByte s)
    else drainFLoop budget (gaps.drop 1) (pushBytes (gapBytes gaps 0) (popByte s))

/-- A budget that always suffices: a round for each byte that can be read now, one for each PUSH in the gaps, and the
comparison that ends the loop. -/
def drainBudget (gaps : List (List Byte)) (s : Block aw) : Nat := s.count.toNat + gaps.flatten.length + 1

/-- DRAIN (41_consumer.md R134): starts only in IDLE. -/
def drainAt (gaps : List (List Byte)) (s : Block aw) : Host.Outcome (Block aw) Fault Refusal :=
  performLoop (onlyIn .idle) (fun s => drainLoop (drainBudget gaps s) gaps s) s

/-- DRAIN of this hardware: `drainAt` at `AW = 8`. -/
def execDrain (gaps : List (List Byte)) (s : State) : Host.Outcome State Fault Refusal := onBlock (drainAt gaps) s

/-- DRAIN.F (30_encoding.md R94). -/
def drainFAt (gaps : List (List Byte)) (s : Block aw) : Host.Outcome (Block aw) Fault Refusal :=
  performLoop (onlyIn .idle) (fun s => drainFLoop (drainBudget gaps s) gaps s) s

/-- DRAIN.F of this hardware: `drainFAt` at `AW = 8`. -/
def execDrainF (gaps : List (List Byte)) (s : State) : Host.Outcome State Fault Refusal := onBlock (drainFAt gaps) s

end Sys2Proof.Machine
end

