-- ==== Sys2Proof/Machine/Control.lean ====
section
/-! DEFINITION. The control operations NOP and RESET (42_control.md R160, R161). -/

namespace Sys2Proof.Machine

variable {aw : Nat}

/-- NOP: nothing happens (42_control.md R160). -/
def nopAt (s : Block aw) : Host.Outcome (Block aw) Fault Refusal := perform anyPhase id s

/-- NOP of this hardware: `nopAt` at `AW = 8`. -/
def execNop (s : State) : Host.Outcome State Fault Refusal := onBlock nopAt s

/-- The one step of RESET (42_control.md R161): `head`, `tail`, `ovf` and `cphase` cleared; `mem` and `rd_latch` unspecified,
as the free values of this RESET (10_state.md R40, R42); no event, and a new trace (R43; entry 4). -/
def resetBlock (s : Block aw) : Block aw :=
  { s with
    mem := []
    head := 0
    tail := 0
    ovf := false
    cphase := .idle
    rdLatch := Config.resetLatch (s.resets + 1)
    trace := []
    hadReset := true
    resets := s.resets + 1 }

/-- RESET (42_control.md R161): admissible in every state, also before any earlier RESET. -/
def resetAt (s : Block aw) : Host.Outcome (Block aw) Fault Refusal := .next (resetBlock s)

/-- RESET of this hardware: `resetAt` at `AW = 8`. -/
def execReset (s : State) : Host.Outcome State Fault Refusal := onBlock resetAt s

end Sys2Proof.Machine
end

