-- ==== Sys2Proof/Machine/Dispatch.lean ====
section
/-! DEFINITION. One arm per operation. -/

namespace Sys2Proof.Machine

def exec (i : Instr) (s : State) : Host.Outcome State Fault Refusal :=
  match i with
  | .nop => Sys2Proof.Machine.execNop s
  | .push imm8 => Sys2Proof.Machine.execPush imm8 s
  | .popS => Sys2Proof.Machine.execPopS s
  | .popR => Sys2Proof.Machine.execPopR s
  | .popA => Sys2Proof.Machine.execPopA s
  | .pop => Sys2Proof.Machine.execPop s
  | .reset => Sys2Proof.Machine.execReset s
  | .drain gaps => Sys2Proof.Machine.execDrain gaps s
  | .drainF gaps => Sys2Proof.Machine.execDrainF gaps s
  | .pushS text => Sys2Proof.Machine.execPushS text s
  | .pushN n f => Sys2Proof.Machine.execPushN n f s

end Sys2Proof.Machine
end

