-- ==== Sys2Proof/Machine/Step.lean ====
section
/-! DEFINITION. One step: the next token of the schedule is decoded and performed (00_scope.md R15, R16). -/

namespace Sys2Proof.Machine

/-- One step. A reserved token is refused (30_encoding.md R88). At the schedule's end there is no activity at the ports,
which is NOP (30_encoding.md R81; entry 11). -/
def step (s : State) : Host.Outcome State Fault Refusal :=
  match fetch s with
  | none => exec .nop s
  | some (t, after) =>
    match decode t with
    | .ok i => exec i after
    | .error _ => .refused (.reservedToken t)

/-- The state with a table row's word as the next token of its schedule. -/
def State.withFetchWord (s : State) (nbits w : Nat) : State := placeTableWord s nbits w

end Sys2Proof.Machine
end

