-- ==== Sys2Proof/Machine/Assembler.lean ====
section
/-! DEFINITION. The text form of a schedule (30_encoding.md R92 to R96): one operation a line, mnemonics in upper case, `;`
for a comment. A line is a list of characters. -/

namespace Sys2Proof.Machine

/-- Why a line is no operation. -/
inductive AsmError where
  /-- No row of the opcode map has this mnemonic (30_encoding.md R85, R92). -/
  | unknownMnemonic
  /-- The operand does not have the form of 30_encoding.md R92, R95 or R96. -/
  | badOperand
  /-- Text is left after the operands. -/
  | trailingText
  deriving DecidableEq, Repr

/-- A blank between the words of a line. -/
def isBlank (c : Char) : Bool := c == ' ' || c == '\t'

/-- The double quote, which opens and closes the text of PUSH.S. -/
def quoteChar : Char := Char.ofNat 34

/-- Leave out the blanks a text begins with. -/
def skipBlanks (cs : List Char) : List Char := cs.dropWhile isBlank

/-- The value of a decimal digit. -/
def decDigit? (c : Char) : Option Nat :=
  if 48 ≤ c.toNat ∧ c.toNat ≤ 57 then some (c.toNat - 48) else none

/-- The value of a hexadecimal digit, in either case of letters. -/
def hexDigit? (c : Char) : Option Nat :=
  if 48 ≤ c.toNat ∧ c.toNat ≤ 57 then some (c.toNat - 48)
  else if 65 ≤ c.toNat ∧ c.toNat ≤ 70 then some (c.toNat - 55)
  else if 97 ≤ c.toNat ∧ c.toNat ≤ 102 then some (c.toNat - 87)
  else none

/-- The digits a text begins with, as a number in the base, and what follows; `acc` is what was read so far. -/
def takeDigits (digit? : Char → Option Nat) (base acc : Nat) : List Char → Nat × List Char
  | [] => (acc, [])
  | c :: cs =>
    match digit? c with
    | some d => takeDigits digit? base (acc * base + d) cs
    | none => (acc, c :: cs)

/-- A number at the start of a text: `0x` and hexadecimal digits, or decimal digits (00_scope.md section 6). -/
def takeNumber : List Char → Option (Nat × List Char)
  | '0' :: 'x' :: c :: cs => (hexDigit? c).map (fun d => takeDigits hexDigit? 16 d cs)
  | c :: cs => (decDigit? c).map (fun d => takeDigits decDigit? 10 d cs)
  | [] => none

/-- The code of an ASCII character (30_encoding.md R92). -/
def asciiByte? (c : Char) : Option Byte := if c.toNat < 128 then some (BitVec.ofNat 8 c.toNat) else none

/-- The operand of PUSH: `0xNN`, a decimal number 0 to 255, or `'c'` (30_encoding.md R92). A `;` between the quotes is the
character (DESIGN CHOICE, entry 10). -/
def takeByte : List Char → Option (Byte × List Char)
  | '\'' :: c :: '\'' :: cs => (asciiByte? c).map (fun b => (b, cs))
  | '0' :: 'x' :: h :: l :: cs =>
    match hexDigit? h, hexDigit? l with
    | some high, some low => some (BitVec.ofNat 8 (16 * high + low), cs)
    | _, _ => none
  | c :: cs =>
    match decDigit? c with
    | some d =>
      let (v, rest) := takeDigits decDigit? 10 d cs
      if v ≤ 255 then some (BitVec.ofNat 8 v, rest) else none
    | none => none
  | [] => none

/-- The characters of PUSH.S after the opening quote, up to the closing one, with the escapes `\r`, `\n`, `\\`, `\"` and
`\xNN` (30_encoding.md R95). A `;` among them is a character of the text (DESIGN CHOICE, entry 10). -/
def takeText : List Char → Option (List Byte × List Char)
  | [] => none
  | '\\' :: 'x' :: h :: l :: cs =>
    match hexDigit? h, hexDigit? l, takeText cs with
    | some high, some low, some (bs, rest) => some (BitVec.ofNat 8 (16 * high + low) :: bs, rest)
    | _, _, _ => none
  | '\\' :: c :: cs =>
    match takeText cs with
    | some (bs, rest) =>
      if c = 'r' then some (0x0D :: bs, rest)
      else if c = 'n' then some (0x0A :: bs, rest)
      else if c = '\\' then some (0x5C :: bs, rest)
      else if c = quoteChar then some (0x22 :: bs, rest)
      else none
    | none => none
  | c :: cs =>
    if c = quoteChar then some ([], cs)
    else
      match asciiByte? c, takeText cs with
      | some b, some (bs, rest) => some (b :: bs, rest)
      | _, _ => none

/-- The words of the expression `f` of PUSH.N (30_encoding.md R96: "an expression in `i`"; DESIGN CHOICE, entry 10). -/
inductive ExprWord where
  | plus
  | minus
  | times
  | modulo
  | leftParen
  | rightParen
  | var
  | number (n : Nat)
  deriving DecidableEq, Repr

/-- The word at the start of a text, blanks left out, and the text after it. -/
def exprWord? (cs : List Char) : Option (ExprWord × List Char) :=
  let cs := skipBlanks cs
  match cs with
  | [] => none
  | c :: rest =>
    if c = '+' then some (.plus, rest)
    else if c = '-' then some (.minus, rest)
    else if c = '*' then some (.times, rest)
    else if c = '(' then some (.leftParen, rest)
    else if c = ')' then some (.rightParen, rest)
    else if c = 'i' then some (.var, rest)
    else if cs.take 3 = ['m', 'o', 'd'] then some (.modulo, cs.drop 3)
    else (takeNumber cs).map (fun p => (.number p.1, p.2))

/-- The three parts of the grammar of `f`: sums and differences of products and remainders of `i`, numbers and expressions in
parentheses. -/
inductive ExprPart where
  | sum
  | sumTail
  | product
  | productTail
  | atom
  deriving DecidableEq, Repr

/-- The value of an expression at `i` and the text after it; `left` is the value to the left of a tail. The fuel bounds the
number of parts read. -/
def evalExpr (i : Int) : Nat → ExprPart → Int → List Char → Option (Int × List Char)
  | 0, _, _, _ => none
  | fuel + 1, .sum, left, cs =>
    match evalExpr i fuel .product left cs with
    | some (v, rest) => evalExpr i fuel .sumTail v rest
    | none => none
  | fuel + 1, .sumTail, left, cs =>
    match exprWord? cs with
    | some (.plus, cs') =>
      match evalExpr i fuel .product left cs' with
      | some (v, rest) => evalExpr i fuel .sumTail (left + v) rest
      | none => none
    | some (.minus, cs') =>
      match evalExpr i fuel .product left cs' with
      | some (v, rest) => evalExpr i fuel .sumTail (left - v) rest
      | none => none
    | _ => some (left, cs)
  | fuel + 1, .product, left, cs =>
    match evalExpr i fuel .atom left cs with
    | some (v, rest) => evalExpr i fuel .productTail v rest
    | none => none
  | fuel + 1, .productTail, left, cs =>
    match exprWord? cs with
    | some (.times, cs') =>
      match evalExpr i fuel .atom left cs' with
      | some (v, rest) => evalExpr i fuel .productTail (left * v) rest
      | none => none
    | some (.modulo, cs') =>
      match evalExpr i fuel .atom left cs' with
      | some (v, rest) => if v = 0 then none else evalExpr i fuel .productTail (left % v) rest
      | none => none
    | _ => some (left, cs)
  | fuel + 1, .atom, left, cs =>
    match exprWord? cs with
    | some (.var, cs') => some (i, cs')
    | some (.number n, cs') => some ((n : Int), cs')
    | some (.leftParen, cs') =>
      match evalExpr i fuel .sum left cs' with
      | some (v, rest) =>
        match exprWord? rest with
        | some (.rightParen, rest') => some (v, rest')
        | _ => none
      | none => none
    | _ => none

/-- The operands of PUSH.N: `n`, a comma, the expression; the expression's values at `0 .. n-1` (30_encoding.md R96). -/
def takeSeries (cs : List Char) : Option (Instr × List Char) :=
  match takeNumber cs with
  | none => none
  | some (n, rest) =>
    match skipBlanks rest with
    | ',' :: expr =>
      let fuel := 6 * expr.length + 6
      match evalExpr 0 fuel .sum 0 expr, (List.range n).mapM (fun (k : Nat) => evalExpr k fuel .sum 0 expr) with
      | some (_, after), some values => some (.pushN n (values.map Prod.fst), after)
      | _, _ => none
    | _ => none

/-- The operands that follow a mnemonic, and the text after them. -/
def takeOperands (mnemonic : List Char) (cs : List Char) : Except AsmError (Instr × List Char) :=
  let plain (i : Instr) : Except AsmError (Instr × List Char) := .ok (i, cs)
  let needed (o : Option (Instr × List Char)) : Except AsmError (Instr × List Char) :=
    match o with
    | some r => .ok r
    | none => .error .badOperand
  if mnemonic = ['N', 'O', 'P'] then plain .nop
  else if mnemonic = ['P', 'U', 'S', 'H'] then needed ((takeByte cs).map (fun p => (.push p.1, p.2)))
  else if mnemonic = ['P', 'O', 'P', '.', 'S'] then plain .popS
  else if mnemonic = ['P', 'O', 'P', '.', 'R'] then plain .popR
  else if mnemonic = ['P', 'O', 'P', '.', 'A'] then plain .popA
  else if mnemonic = ['P', 'O', 'P'] then plain .pop
  else if mnemonic = ['R', 'E', 'S', 'E', 'T'] then plain .reset
  else if mnemonic = ['D', 'R', 'A', 'I', 'N'] then plain (.drain [])
  else if mnemonic = ['D', 'R', 'A', 'I', 'N', '.', 'F'] then plain (.drainF [])
  else if mnemonic = ['P', 'U', 'S', 'H', '.', 'S'] then
    match cs with
    | c :: rest =>
      if c = quoteChar then needed ((takeText rest).map (fun p => (.pushS p.1, p.2))) else .error .badOperand
    | [] => .error .badOperand
  else if mnemonic = ['P', 'U', 'S', 'H', '.', 'N'] then needed (takeSeries cs)
  else .error .unknownMnemonic

/-- One line: nothing for a blank line or a comment alone, else its operation (30_encoding.md R92). A `;` starts a comment only
outside quotes: R92 says that `;` starts a comment to the end of the line and also allows any quoted character, and does not say
which holds of a quoted `;`. DESIGN CHOICE (entry 10): it is the quoted character. -/
def assembleLine (line : List Char) : Except AsmError (Option Instr) :=
  match skipBlanks line with
  | [] => .ok none
  | ';' :: _ => .ok none
  | cs =>
    let wordChar (c : Char) : Bool := !isBlank c && c != ';'
    match takeOperands (cs.takeWhile wordChar) (skipBlanks (cs.dropWhile wordChar)) with
    | .error e => .error e
    | .ok (i, rest) =>
      match skipBlanks rest with
      | [] => .ok (some i)
      | ';' :: _ => .ok (some i)
      | _ => .error .trailingText

/-- The lines of a schedule's text, in order (30_encoding.md R92). -/
def assemble : List (List Char) → Except AsmError (List Instr)
  | [] => .ok []
  | line :: lines =>
    match assembleLine line, assemble lines with
    | .ok (some i), .ok is => .ok (i :: is)
    | .ok none, .ok is => .ok is
    | .error e, _ => .error e
    | .ok _, .error e => .error e

/-- The tokens of an operation whose expansion does not depend on the state; none for DRAIN and DRAIN.F
(30_encoding.md R92 to R96). -/
def operationTokens : Instr → Option (List Token)
  | .pushS text => some ((textBytes text).map (makeToken 0x1))
  | .pushN n f => some ((seriesBytes n f).map (makeToken 0x1))
  | .drain _ | .drainF _ => none
  | .nop => (encode .nop).map (fun t => [t])
  | .push imm8 => (encode (.push imm8)).map (fun t => [t])
  | .popS => (encode .popS).map (fun t => [t])
  | .popR => (encode .popR).map (fun t => [t])
  | .popA => (encode .popA).map (fun t => [t])
  | .pop => (encode .pop).map (fun t => [t])
  | .reset => (encode .reset).map (fun t => [t])

end Sys2Proof.Machine
end

