-- ==== Sys2Proof/Machine/Ports.lean ====
section
/-! DEFINITION. The ports (30_encoding.md R80, R81), the status outputs (42_control.md R162 to R166), and the capabilities of
the agents (60_exceptions.md R188). None of these takes a step. -/

namespace Sys2Proof.Machine

variable {aw : Nat}

/-- The level outputs of 30_encoding.md R80. -/
structure PortLevels (aw : Nat) where
  wrFull : Bool
  rdEmpty : Bool
  rdData : Byte
  count : Index aw
  ovf : Bool
  deriving DecidableEq, Repr

/-- The level outputs as functions of the state (42_control.md R162 to R166). `rdData` shows whatever slot `tail` holds, a free
byte where nothing was written since the last RESET (R166). -/
def portLevels (s : Block aw) : PortLevels aw where
  wrFull := s.isFull
  rdEmpty := s.isEmpty
  rdData := loadSlot s s.tail
  count := s.count
  ovf := s.ovf

/-- How often `wr_overrun` has pulsed since the last RESET: once for each OVERRUN event (42_control.md R165). -/
def overrunPulses (s : Block aw) : Nat := s.trace.countP (fun e => e == .overrun)

/-- What an agent does at the ports (30_encoding.md R81). -/
inductive PortAction where
  /-- `wr_en` with `wr_data == b`. -/
  | assertWrite (b : Byte)
  /-- The consumer looks at `rd_empty` to decide whether to read. -/
  | lookAtEmpty
  /-- The consumer captures `rd_data`. -/
  | captureData
  /-- The consumer asserts `rd_en` and hands the captured byte on. -/
  | assertRead
  /-- The consumer does all three at one instant. -/
  | readAtOnce
  /-- `rst`. -/
  | assertReset
  /-- No activity. -/
  | quiet
  deriving DecidableEq, Repr

/-- The operation that a port action is (30_encoding.md R81). -/
def portOperation : PortAction → Instr
  | .assertWrite b => .push b
  | .lookAtEmpty => .popS
  | .captureData => .popR
  | .assertRead => .popA
  | .readAtOnce => .pop
  | .assertReset => .reset
  | .quiet => .nop

/-! ### Capabilities (60_exceptions.md R188; 90_conflicts.md C6)

Fixed per agent, and no operation changes one. `Agent.any` is no agent but the agent column of NOP, and may read and write
nothing (DESIGN CHOICE, entry 17). -/

/-- The column "may perform": an agent performs NOP, and an operation that is made of its own steps alone (entry 16 for DRAIN and
DRAIN.F with PUSH bytes in their gaps: no one agent). -/
def mayPerform (a : Agent) (i : Instr) : Bool := i.performers.all (fun p => p == a)

/-- What the column "may read" names. -/
inductive Readable where
  | head
  | tail
  /-- `mem[tail]`. -/
  | slotAtTail
  /-- This and what follows are the status outputs of 42_control.md R162 to R166. -/
  | wrFull
  | wrOverrun
  | rdEmpty
  | rdData
  | count
  | ovf
  deriving DecidableEq, Repr

/-- The column "may read". -/
def mayRead : Agent → Readable → Bool
  | .producer, .head | .producer, .tail | .producer, .wrFull => true
  | .producer, _ => false
  | .consumer, _ => true
  | .host, .head | .host, .tail | .host, .slotAtTail => false
  | .host, _ => true
  | .any, _ => false

/-- What reading it gives, as a number; of `wr_overrun`, a pulse, how many there were since the last RESET (42_control.md R165;
DESIGN CHOICE, entry 17). -/
def readValue (r : Readable) (s : Block aw) : Nat :=
  match r with
  | .head => s.head.toNat
  | .tail => s.tail.toNat
  | .slotAtTail => (loadSlot s s.tail).toNat
  | .wrFull => (portLevels s).wrFull.toNat
  | .wrOverrun => overrunPulses s
  | .rdEmpty => (portLevels s).rdEmpty.toNat
  | .rdData => (portLevels s).rdData.toNat
  | .count => (portLevels s).count.toNat
  | .ovf => (portLevels s).ovf.toNat

/-- Two states in which an agent reads the same. -/
def sameView (a : Agent) (s t : Block aw) : Prop := ∀ r, mayRead a r = true → readValue r s = readValue r t

/-- What the column "may write" names: the parts of the tuple of 10_state.md R20. -/
inductive Piece where
  | slots
  | head
  | tail
  | ovf
  | cphase
  | rdLatch
  deriving DecidableEq, Repr

/-- The column "may write". Of the slots the producer writes the one at `head`, and `ovf` it only sets; the host writes through
RESET only (both are statements, `Obligations.AgentsKeepToTheirCapabilities`). -/
def mayWrite : Agent → Piece → Bool
  | .producer, .slots | .producer, .head | .producer, .ovf => true
  | .producer, _ => false
  | .consumer, .tail | .consumer, .cphase | .consumer, .rdLatch => true
  | .consumer, _ => false
  | .host, _ => true
  | .any, _ => false

/-- A part of the tuple is the same in both states. -/
def pieceUnchanged (p : Piece) (s t : Block aw) : Prop :=
  match p with
  | .slots => ∀ a, memRead t.mem a = memRead s.mem a
  | .head => t.head = s.head
  | .tail => t.tail = s.tail
  | .ovf => t.ovf = s.ovf
  | .cphase => t.cphase = s.cphase
  | .rdLatch => t.rdLatch = s.rdLatch

end Sys2Proof.Machine
end

