-- ==== Sys2Proof/Machine/Width.lean ====
section
/-! DEFINITION. The operations of the block at every index width (00_scope.md R6), and the runs of operations and of schedules
of tokens, finite and infinite (00_scope.md R16). -/

namespace Sys2Proof.Machine

variable {aw : Nat}

/-- One operation of the block at index width `aw`. Above `aw = 8` it assumes that no pointer is seen half written: DESIGN CHOICE,
entry 18 (10_state.md R25, 70_reset_and_hazards.md R217). -/
def execAt (i : Instr) (s : Block aw) : Host.Outcome (Block aw) Fault Refusal :=
  match i with
  | .nop => nopAt s
  | .push imm8 => pushAt imm8 s
  | .popS => popSAt s
  | .popR => popRAt s
  | .popA => popAAt s
  | .pop => popAt s
  | .reset => resetAt s
  | .drain gaps => drainAt gaps s
  | .drainF gaps => drainFAt gaps s
  | .pushS text => pushSAt text s
  | .pushN n f => pushNAt n f s

/-- What follows an outcome: the next operation, if there is a next state. -/
def andThen (o : Host.Outcome (Block aw) Fault Refusal) (k : Block aw → Host.Outcome (Block aw) Fault Refusal) :
    Host.Outcome (Block aw) Fault Refusal :=
  match o with
  | .next t => k t
  | .fault f => .fault f
  | .refused r => .refused r

/-- Operations performed one after the other, up to the first that has no next state. -/
def runOpsAt : List Instr → Block aw → Host.Outcome (Block aw) Fault Refusal
  | [], s => .next s
  | i :: is, s => andThen (execAt i s) (runOpsAt is)

/-- One token: its operation, or the refusal of a reserved token (30_encoding.md R88). -/
def tokenAt (t : Token) (s : Block aw) : Host.Outcome (Block aw) Fault Refusal :=
  match decode t with
  | .ok i => execAt i s
  | .error _ => .refused (.reservedToken t)

/-- Tokens performed one after the other: "The model refuses an inadmissible schedule at the first offending token"
(00_scope.md R16). -/
def runTokensAt : List Token → Block aw → Host.Outcome (Block aw) Fault Refusal
  | [], s => .next s
  | t :: ts, s => andThen (tokenAt t s) (runTokensAt ts)

/-- A schedule: "a finite or infinite sequence of operation tokens" (00_scope.md R16). -/
inductive Schedule where
  | finite (ts : List Token)
  | infinite (t : Nat → Token)

/-- The first `n` tokens of a schedule; all of them when it has fewer. -/
def Schedule.first : Schedule → Nat → List Token
  | .finite ts, n => ts.take n
  | .infinite t, n => (List.range n).map t

/-- What running the first `n` tokens of a schedule answers. An infinite run is all of these. -/
def Schedule.runFirst (sch : Schedule) (n : Nat) (s : Block aw) : Host.Outcome (Block aw) Fault Refusal :=
  runTokensAt (sch.first n) s

/-- A schedule that no token's refusal stops, from a given start state (00_scope.md R16). From a state before the first RESET
this asks that its first token is RESET (10_state.md R44). -/
def Schedule.Admissible (sch : Schedule) (s : Block aw) : Prop :=
  ∀ n, ∃ t, sch.runFirst n s = .next t

end Sys2Proof.Machine
end

