-- ==== Sys2Proof/Safety.lean ====
section
/-! DEFINITION. What claims are stated in: runs of schedules, the end of a run, the bytes that wait to be read, the invariant
every step keeps, and the first-in first-out invariant with its ghost history. -/

namespace Sys2Proof.Machine

/-! ### Outcomes -/

/-- The next state of an outcome, if it is one. -/
def nextState? {σ : Type} : Host.Outcome σ Fault Refusal → Option σ
  | .next s => some s
  | .fault _ => none
  | .refused _ => none

/-- The refusal of an outcome, if it is one. -/
def refusal? {σ : Type} : Host.Outcome σ Fault Refusal → Option Refusal
  | .next _ => none
  | .fault _ => none
  | .refused r => some r

/-! ### Runs of schedules (00_scope.md R16) -/

/-- Operations performed one after the other, up to the first that has no next state. -/
def runOps : List Instr → State → Host.Outcome State Fault Refusal
  | [], s => .next s
  | i :: is, s =>
    match exec i s with
    | .next t => runOps is t
    | .fault f => .fault f
    | .refused r => .refused r

/-- A finite schedule run to its end: its tokens put before what the state has scheduled, and as many steps. Infinite schedules
are run in Machine/Width.lean (`Schedule`), on the block. -/
def runTokens (ts : List Token) (s : State) : Host.Outcome State Fault Refusal :=
  Sys2Proof.core.run ts.length { s with schedule := ts ++ s.schedule }

/-- A finite schedule that no step refuses from a given start state (00_scope.md R16). -/
def admissible (ts : List Token) (s : State) : Bool := (nextState? (runTokens ts s)).isSome

/-- One PUSH for each byte, in order. -/
def pushOps (bs : List Byte) : List Instr := bs.map Instr.push

/-- The expansion of DRAIN with `k` comparisons that find a byte, with the PUSH tokens of its gaps
(30_encoding.md R93: `(0x200 0x300 0x400)^k 0x200`). -/
def drainOps : Nat → List (List Byte) → List Instr
  | 0, _ => [.popS]
  | k + 1, gaps =>
    [.popS] ++ pushOps (gapBytes gaps 0) ++ [.popR] ++ pushOps (gapBytes gaps 1) ++ [.popA] ++
      pushOps (gapBytes gaps 2) ++ drainOps k (gaps.drop 3)

/-- The expansion of DRAIN.F with `k` POP that find a byte (30_encoding.md R94: `(0x500)^(k+1)`). -/
def drainFOps : Nat → List (List Byte) → List Instr
  | 0, _ => [.pop]
  | k + 1, gaps => [.pop] ++ pushOps (gapBytes gaps 0) ++ drainFOps k (gaps.drop 1)

variable {aw : Nat}

/-! ### The end of a run and the bytes still to be read -/

/-- A quiescent block (70_reset_and_hazards.md R228). -/
def Block.quiescent (s : Block aw) : Bool := s.cphase == .idle

/-- "Drained" means quiescent and EMPTY (70_reset_and_hazards.md R228). -/
def Block.drained (s : Block aw) : Bool := s.quiescent && s.isEmpty

/-- The bytes the consumer can still read without a further push: slots `tail` up to, not including, `head`, with wrap
(10_state.md R31, 41_consumer.md R139). -/
def Block.unread (s : Block aw) : List Byte :=
  (List.range s.count.toNat).map (fun k => loadSlot s (s.tail + BitVec.ofNat aw k))

/-- The bytes of the DELIVER events since the last RESET (10_state.md R33). -/
def Block.delivered (s : Block aw) : List Byte :=
  s.trace.filterMap (fun e => match e with | .deliver b => some b | .overrun => none)

/-- No PUSH of these bytes, pushed in order from this block, finds FULL. -/
def noneFindsFull : List Byte → Block aw → Bool
  | [], _ => true
  | b :: bs, s => !s.isFull && noneFindsFull bs (pushByte b s)

/-! ### The invariant every step keeps -/

/-- A slot that a PUSH has written since the last RESET. -/
def Block.written (s : Block aw) (a : Nat) : Prop := (memRead s.mem a).isSome = true

/-- Every slot that can be read has been written: those less than COUNT past `tail` (10_state.md R37). -/
def Block.unreadWritten (s : Block aw) : Prop :=
  ∀ j : Index aw, (j - s.tail).toNat < s.count.toNat → s.written j.toNat

/-- A block that a run may start from (10_state.md R44): the slot array in its form, every unread slot with a stated byte. -/
structure Block.Startable (s : Block aw) : Prop where
  afterReset : s.hadReset = true
  memory : Memory.wfAt aw s.mem = true
  unreadWritten : s.unreadWritten

/-- What every step keeps. -/
structure BlockInv (s : Block aw) : Prop where
  /-- The slot array keeps its canonical form. -/
  memory : Memory.wfAt aw s.mem = true
  /-- `ovf` is "the disjunction of all OVERRUN events since reset" (10_state.md R26, 40_producer.md R116). -/
  flag : s.ovf = true ↔ Event.overrun ∈ s.trace
  /-- Without an overrun a read in progress has its byte still in the buffer (20_memory.md R66). -/
  pending : s.cphase ≠ .idle → s.ovf = false → s.head ≠ s.tail
  /-- Every slot that can be read has been written (10_state.md R37). -/
  unreadWritten : s.unreadWritten
  /-- A lap means that every slot has been written. -/
  lapWritten : s.ovf = true → ∀ a, a < Config.depthOf aw → s.written a

/-! ### First in, first out (41_consumer.md R139, R140; 70_reset_and_hazards.md R221) -/

/-- The ghost history after an operation with a token: the bytes pushed since the last RESET, oldest first. Its length is the
ghost counter `P` of 10_state.md R35; the number of deliveries is `C`. -/
def historyAfter : Instr → List Byte → List Byte
  | .push b, pushed => pushed ++ [b]
  | .reset, _ => []
  | .nop, pushed | .popS, pushed | .popR, pushed | .popA, pushed | .pop, pushed => pushed
  | .drain _, pushed | .drainF _, pushed | .pushS _, pushed | .pushN _ _, pushed => pushed

/-- The push, counted from 0, whose byte slot `c mod DEPTH` holds after `p` pushes: the latest that wrote the slot
(41_consumer.md R140, which counts from 1). -/
def latestPush (depth c p : Nat) : Nat := c + depth * ((p - c - 1) / depth)

/-- `pushed` holds the bytes pushed since the last RESET, and the block is one that they explain. -/
structure FifoInv (pushed : List Byte) (s : Block aw) : Prop where
  /-- `head == P mod DEPTH` (10_state.md R35). -/
  head : s.head.toNat = pushed.length % Config.depthOf aw
  /-- `tail == C mod DEPTH` (10_state.md R35). -/
  tail : s.tail.toNat = s.delivered.length % Config.depthOf aw
  /-- `C <= P` (10_state.md R36). -/
  behind : s.delivered.length ≤ pushed.length
  /-- A read in progress has a byte to deliver. -/
  reading : s.cphase ≠ .idle → s.delivered.length < pushed.length
  /-- A slot holds the byte of the latest push that wrote it. -/
  slots : ∀ n, n < pushed.length → pushed.length ≤ n + Config.depthOf aw →
    memRead s.mem (n % Config.depthOf aw) = pushed[n]?
  /-- Deliveries are in push order (70_reset_and_hazards.md R221), and the next one will be too. -/
  order : ∃ idx : List Nat, s.delivered = idx.map (fun n => pushed.getD n 0) ∧ idx.Pairwise (· < ·) ∧
    (∀ n ∈ idx, n < pushed.length) ∧
    (s.cphase = .idle → (pushed.length - idx.length) % Config.depthOf aw ≠ 0 →
      ∀ n ∈ idx, n < latestPush (Config.depthOf aw) idx.length pushed.length) ∧
    (s.cphase = .sampled → ∀ n ∈ idx, n < latestPush (Config.depthOf aw) idx.length pushed.length) ∧
    (s.cphase = .read → ∃ p, idx.length < p ∧ p ≤ pushed.length ∧
      pushed[latestPush (Config.depthOf aw) idx.length p]? = some s.rdLatch ∧
      ∀ n ∈ idx, n < latestPush (Config.depthOf aw) idx.length p)
  /-- Without an overrun nothing is lost (41_consumer.md R139). -/
  noLoss : s.ovf = false →
    pushed.length ≤ s.delivered.length + Config.usableOf aw ∧ s.delivered = pushed.take s.delivered.length

end Sys2Proof.Machine
end

