-- ==== Sys2Proof/Certificates/Slice0/Obligations.lean ====
section
/-! DEFINITION. The statements for the provers. `s.hadReset = true` says that a RESET has happened (10_state.md R44; entry 6).
Statements over `State`, `exec` and `step` are about this hardware, `AW = 8`; those over `Block aw` and `execAt` hold at every
index width (00_scope.md R6). Above `AW = 8` these are claims about the model, which takes each access to `head` and `tail` as
indivisible; of a target whose word is narrower than a pointer they say nothing (10_state.md R25, 70_reset_and_hazards.md R217;
the model's assumption, entry 18). -/

open Sys2Proof Sys2Proof.Machine

/-! ### Tokens, decoding and the step -/

/-- 00_scope.md R15, R16: a step performs the operation of the next token; the token leaves the schedule. -/
def Obligations.StepPerformsTheNextToken : Prop :=
  ∀ (s : State) (t : Token) (rest : List Token) (i : Instr), s.schedule = t :: rest → decode t = .ok i →
    step s = exec i { s with schedule := rest }

/-- 30_encoding.md R81 with R160, at the end of a finite schedule: the model's choice of entry 11. -/
def Obligations.StepAtTheScheduleEndChangesNothing : Prop :=
  ∀ s : State, s.schedule = [] → s.hadReset = true → step s = .next s

/-- 30_encoding.md R88, with the reserved tokens of R87 in numbers. After the first RESET the reason is `reservedToken`; before
it the statement says only that the token is refused, since the reason given there is the model's choice of entry 15. -/
def Obligations.ReservedTokenIsRefused : Prop :=
  ∀ (s : State) (t : Token) (rest : List Token), s.schedule = t :: rest →
    (6 ≤ t.toNat / 256 ∧ t.toNat / 256 ≤ 14 ∨ t.toNat / 256 ≠ 1 ∧ t.toNat % 256 ≠ 0) →
    (∃ r, step s = .refused r) ∧
    (s.hadReset = true →
      step s = .refused (.reservedToken t) ∧ step s ≠ exec .nop { s with schedule := rest })

/-- 30_encoding.md R87: the decoder is total, with 262 operations, how many of each, and 3834 reserved values. -/
def Obligations.TokenCountsOfTheOpcodeMap : Prop :=
  let tokens : List Token := (List.range 4096).map (BitVec.ofNat 12)
  let ofKind (p : Except DecodeError Instr → Bool) : Nat := tokens.countP (fun t => p (decode t))
  let ofOperation (i : Instr) : Nat := ofKind (fun r => match r with | .ok j => j == i | .error _ => false)
  (∀ t : Token, (∃ i, decode t = .ok i) ∨ decode t = .error (.reservedOp t) ∨ decode t = .error (.reservedImm8 t)) ∧
  (ofKind (fun r => match r with | .ok _ => true | .error _ => false) = 262) ∧
  (ofOperation .nop = 1) ∧
  (ofKind (fun r => match r with | .ok (.push _) => true | _ => false) = 256) ∧
  (ofOperation .popS = 1) ∧ (ofOperation .popR = 1) ∧ (ofOperation .popA = 1) ∧ (ofOperation .pop = 1) ∧
  (ofOperation .reset = 1) ∧
  (ofKind (fun r => match r with | .error (.reservedOp _) => true | _ => false) = 2304) ∧
  (ofKind (fun r => match r with | .error (.reservedImm8 _) => true | _ => false) = 1530)

/-- 30_encoding.md R85, R93: decoding and encoding agree in both directions, with every `imm8`. -/
def Obligations.DecodeAndEncodeAgree : Prop :=
  ∀ (t : Token) (i : Instr), decode t = .ok i ↔ encode i = some t

/-- 30_encoding.md R85: words written out from the opcode map. -/
def Obligations.WordsOfTheOpcodeMapDecode : Prop :=
  decode 0x000 = .ok .nop ∧ decode 0x141 = .ok (.push 0x41) ∧ decode 0x1FF = .ok (.push 0xFF) ∧
  decode 0x200 = .ok .popS ∧ decode 0x300 = .ok .popR ∧ decode 0x400 = .ok .popA ∧ decode 0x500 = .ok .pop ∧
  decode 0xF00 = .ok .reset ∧ decode 0x600 = .error (.reservedOp 0x600) ∧ decode 0x2FF = .error (.reservedImm8 0x2FF)

/-- 30_encoding.md R83, the storage form: low byte first, bits 15:12 zero. -/
def Obligations.StoredTokenIsReadBack : Prop :=
  (∀ (t : Token) (i : Instr) (rest : List Byte), decode t = .ok i → decodeBytes (storeToken t ++ rest) = .ok (i, rest)) ∧
  (∀ t : Token, (storeToken t).map BitVec.toNat = [t.toNat % 256, t.toNat / 256]) ∧
  (∀ (low high : Byte) (rest : List Byte), 16 ≤ high.toNat →
    decodeBytes (low :: high :: rest) = .error .storagePadding)

/-- 00_scope.md R16: running the tokens of a finite schedule is performing their operations one after the other, refusals
included; and it is the block's run of these tokens at `AW = 8`, reserved tokens included. -/
def Obligations.ScheduleRunsItsOperations : Prop :=
  (∀ (ts : List Token) (is : List Instr) (s : State), ts.map decode = is.map .ok → runTokens ts s = runOps is s) ∧
  ∀ (ts : List Token) (s : State), runTokens ts s = onBlock (runTokensAt ts) s

/-- 00_scope.md R16, for finite and infinite schedules at every index width: one that is not admissible runs up to a first token,
which is refused, and no longer piece of it has an end. Above `AW = 8` by the assumption of entry 18. -/
def Obligations.InadmissibleScheduleStopsAtAFirstToken : Prop :=
  ∀ (aw : Nat) (sch : Schedule) (s : Block aw), ¬ sch.Admissible s →
    ∃ (n : Nat) (t : Block aw) (tok : Token) (r : Refusal), sch.runFirst n s = .next t ∧
      sch.first (n + 1) = sch.first n ++ [tok] ∧ tokenAt tok t = .refused r ∧
      ∀ m, n < m → sch.runFirst m s = .refused r

/-- 70_reset_and_hazards.md R226: a schedule with pushes only, here an infinite one, is a schedule, and no token of it is
refused; nothing is delivered. Above `AW = 8` by the assumption of entry 18. -/
def Obligations.PushOnlyScheduleIsAdmissible : Prop :=
  ∀ (aw : Nat) (f : Nat → Byte) (s : Block aw), 1 ≤ aw → s.hadReset = true →
    (Schedule.infinite (fun n => makeToken 0x1 (f n))).Admissible s ∧
    ∀ n t, (Schedule.infinite (fun n => makeToken 0x1 (f n))).runFirst n s = .next t →
      t.head.toNat = (s.head.toNat + n) % 2 ^ aw ∧ t.tail = s.tail ∧ t.delivered = s.delivered

/-! ### Admissibility -/

/-- 10_state.md R44: before the first RESET everything else is refused, and RESET runs. That the reason is `beforeReset` also for
a consumer operation out of its phase, and that PUSH.S and PUSH.N without bytes are refused, are the model's choice of
entry 15. -/
def Obligations.OnlyResetRunsBeforeTheFirstReset : Prop :=
  ∀ s : State, s.hadReset = false →
    (∀ i : Instr, i ≠ .reset → exec i s = .refused .beforeReset) ∧
    ∃ t : State, exec .reset s = .next t ∧ t.hadReset = true

/-- 30_encoding.md R91. -/
def Obligations.ConsumerTokensKeepTheirPhase : Prop :=
  ∀ s : State, s.hadReset = true →
    (s.cphase ≠ .idle → exec .popS s = .refused .consumerPhase ∧ exec .pop s = .refused .consumerPhase) ∧
    (s.cphase ≠ .sampled → exec .popR s = .refused .consumerPhase) ∧
    (s.cphase ≠ .read → exec .popA s = .refused .consumerPhase) ∧
    (s.cphase = .idle → (∃ t : State, exec .popS s = .next t) ∧ ∃ t : State, exec .pop s = .next t) ∧
    (s.cphase = .sampled → ∃ t : State, exec .popR s = .next t) ∧
    (s.cphase = .read → ∃ t : State, exec .popA s = .next t) ∧
    (∃ t : State, exec .nop s = .next t) ∧ (∃ t : State, exec .reset s = .next t) ∧ ∀ b, ∃ t : State, exec (.push b) s = .next t

/-- 41_consumer.md R134, 30_encoding.md R93, R94: DRAIN and DRAIN.F begin with a POP.S or a POP, so they start in IDLE and are
refused elsewhere. That the refusal of the whole is `consumerPhase` is the model's choice of entry 15, and the gaps are that of
entry 8. -/
def Obligations.DrainStartsOnlyInIdle : Prop :=
  ∀ (gaps : List (List Byte)) (s : State), s.hadReset = true → ∀ i ∈ [Instr.drain gaps, Instr.drainF gaps],
    (s.cphase ≠ .idle → exec i s = .refused .consumerPhase) ∧ (s.cphase = .idle → ∃ t : State, exec i s = .next t)

/-- 60_exceptions.md R182: the block never stops an agent. DRAIN and DRAIN.F never exhaust their budget: this rests on the model's
choices of entries 8 (an instruction carries finitely many gaps) and 14 (the budget); 70_reset_and_hazards.md R222 asks for such
a premise. A DRAIN that does not end is `Obligations.DrainNeedNotEnd`. -/
def Obligations.NothingFaults : Prop :=
  ∀ (s : State) (f : Fault), step s ≠ .fault f ∧ ∀ i, exec i s ≠ .fault f

/-! ### Control operations -/

/-- 42_control.md R160: NOP leaves the state as it is, and a schedule without its NOP tokens runs the same. -/
def Obligations.NopHasNoEffect : Prop :=
  ∀ s : State, s.hadReset = true →
    exec .nop s = .next s ∧ ∀ is : List Instr, runOps (is.filter (fun i => i ≠ .nop)) s = runOps is s

/-- 42_control.md R161: RESET, in every state. No event is emitted: the trace after it holds no event, and none more often, than
the one before. Nothing is said of the slots and the latch, which become unspecified. -/
def Obligations.ResetClearsTheBlock : Prop :=
  ∀ s : State, ∃ t : State, exec .reset s = .next t ∧ t.head = 0 ∧ t.tail = 0 ∧ t.ovf = false ∧ t.cphase = .idle ∧
    t.trace.Sublist s.trace

/-- The model's own choices at RESET (entries 4, 5, 6): a new trace, the schedule going on, and a RESET noted. -/
def Obligations.ResetStartsANewTrace : Prop :=
  ∀ s : State, ∃ t : State, exec .reset s = .next t ∧ t.trace = [] ∧ t.schedule = s.schedule ∧ t.hadReset = true

/-- 10_state.md R38, R39, R41: the values the spec gives for the state after RESET, and what follows from them; of `State.reset`
and after a RESET operation. -/
def Obligations.StateAfterResetHoldsTheSpecValues : Prop :=
  ∀ s t : State, (t = State.reset ∨ exec .reset s = .next t) →
    t.head = 0 ∧ t.tail = 0 ∧ t.ovf = false ∧ t.cphase = .idle ∧
    t.isEmpty = true ∧ t.count.toNat = 0 ∧ t.free.toNat = 255 ∧ t.isFull = false

/-! ### The producer's operations -/

/-- 40_producer.md R110: PUSH in every phase, full or not; it stores at `head`. -/
def Obligations.PushAppendsOneByte : Prop :=
  ∀ (b : Byte) (s : State), s.hadReset = true → ∃ t : State, exec (.push b) s = .next t ∧
    (∀ a, memRead t.mem a = if a = s.head.toNat then some b else memRead s.mem a) ∧
    t.head.toNat = (s.head.toNat + 1) % 256 ∧
    t.ovf = (s.ovf || decide ((s.head.toNat + 1) % 256 = s.tail.toNat)) ∧
    t.trace = s.trace ++ (if (s.head.toNat + 1) % 256 = s.tail.toNat then [Event.overrun] else []) ∧
    t.tail = s.tail ∧ t.cphase = s.cphase ∧ t.rdLatch = s.rdLatch ∧ t.schedule = s.schedule ∧
    t.hadReset = s.hadReset ∧ t.resets = s.resets

/-- 00_scope.md R6 with 40_producer.md R110: PUSH at every index width of at least one bit, with `DEPTH = 2^AW`. Above
`AW = 8` by the assumption of entry 18. -/
def Obligations.PushAtEveryWidth : Prop :=
  ∀ (aw : Nat) (b : Byte) (s : Block aw), 1 ≤ aw → s.hadReset = true → ∃ t : Block aw, execAt (.push b) s = .next t ∧
    (∀ a, memRead t.mem a = if a = s.head.toNat then some b else memRead s.mem a) ∧
    t.head.toNat = (s.head.toNat + 1) % 2 ^ aw ∧
    t.ovf = (s.ovf || decide ((s.head.toNat + 1) % 2 ^ aw = s.tail.toNat)) ∧
    t.trace = s.trace ++ (if (s.head.toNat + 1) % 2 ^ aw = s.tail.toNat then [Event.overrun] else []) ∧
    t.tail = s.tail ∧ t.cphase = s.cphase ∧ t.rdLatch = s.rdLatch ∧ t.hadReset = s.hadReset ∧ t.resets = s.resets

/-- 40_producer.md R113: OVERRUN exactly when COUNT is MASK; in ghost counters; with no reads at pushes 256, 512, ... -/
def Obligations.OverrunFiresExactlyAtCountMask : Prop :=
  (∀ (b : Byte) (s : State), s.hadReset = true → ∃ t : State, exec (.push b) s = .next t ∧
    (t.trace = s.trace ++ [Event.overrun] ↔ s.count.toNat = 255) ∧ (t.trace = s.trace ↔ s.count.toNat ≠ 255)) ∧
  (∀ (pushed : List Byte) (s : State), FifoInv pushed s.toBlock →
    (s.count.toNat = 255 ↔ (pushed.length - s.delivered.length) % 256 = 255)) ∧
  (∀ (bs : List Byte) (s : State), ∃ t : State, runOps (Instr.reset :: pushOps bs) s = .next t ∧
    overrunPulses t.toBlock = bs.length / 256)

/-- 40_producer.md R114: what the overrunning PUSH does to the view of the consumer; the bytes stay in the slots. -/
def Obligations.OverrunningPushMakesTheBufferReadEmpty : Prop :=
  ∀ (b : Byte) (s : State), s.hadReset = true → s.count.toNat = 255 → ∃ t : State, exec (.push b) s = .next t ∧
    t.head = t.tail ∧ t.isEmpty = true ∧ t.count.toNat = 0 ∧ loadSlot t.toBlock s.head = b ∧
    (∀ k, k < 255 → loadSlot t.toBlock (s.tail + BitVec.ofNat 8 k) = loadSlot s.toBlock (s.tail + BitVec.ofNat 8 k)) ∧
    (s.cphase = .idle → runOps [Instr.push b, .popS] s = .next t)

/-- 40_producer.md R115 and 70_reset_and_hazards.md R218: from a state that reads empty, pushing and then draining delivers
the last `P mod DEPTH` bytes pushed, in order; up to 255 bytes, all of them and no signal. -/
def Obligations.PushesThenDrainDeliverTheLastBytes : Prop :=
  ∀ (bs : List Byte) (s : State), s.hadReset = true → s.cphase = .idle → s.head = s.tail →
    ∃ t u : State, runOps (pushOps bs) s = .next t ∧ runOps (pushOps bs ++ [Instr.drain []]) s = .next u ∧
      t.count.toNat = bs.length % 256 ∧ t.unread = bs.drop (bs.length - bs.length % 256) ∧
      u.delivered = s.delivered ++ bs.drop (bs.length - bs.length % 256) ∧ u.drained = true ∧
      (bs.length ≤ 255 → u.trace = s.trace ++ bs.map Event.deliver ∧ u.ovf = s.ovf)

/-- 30_encoding.md R95: PUSH.S is one PUSH for each byte of its text, in order. -/
def Obligations.PushTextRunsItsExpansion : Prop :=
  ∀ (text : List Byte) (s : State), s.hadReset = true →
    ∃ t : State, exec (.pushS text) s = .next t ∧ runOps (pushOps text) s = .next t

/-- 30_encoding.md R96: PUSH.N is `n` PUSH, the `i`-th with `f(i) & 0xFF`; `f` as the list of its values is the model's choice
(entry 9). -/
def Obligations.PushSeriesRunsItsExpansion : Prop :=
  ∀ (n : Nat) (f : List Int) (s : State), (Instr.pushN n f).wellFormed = true → s.hadReset = true →
    ∃ t : State, exec (.pushN n f) s = .next t ∧
      runOps ((List.range n).map (fun i => .push (BitVec.ofNat 8 ((f.getD i 0) % 256).toNat))) s = .next t

/-! ### The consumer's operations -/

/-- 41_consumer.md R130: POP.S, its effect and its admissibility. -/
def Obligations.PopSampleCompares : Prop :=
  ∀ s : State, s.hadReset = true →
    (s.cphase = .idle → exec .popS s = .next { s with cphase := if s.head ≠ s.tail then .sampled else .idle }) ∧
    (s.cphase ≠ .idle → exec .popS s = .refused .consumerPhase)

/-- 41_consumer.md R131: POP.R. The slot's byte is the one a PUSH stored, or the free byte of a slot that none wrote. -/
def Obligations.PopReadLatchesTheSlot : Prop :=
  ∀ s : State, s.hadReset = true →
    (s.cphase = .sampled → ∃ t : State, exec .popR s = .next t ∧
      (∀ b, memRead s.mem s.tail.toNat = some b → t.rdLatch = b) ∧ t.rdLatch = (portLevels s.toBlock).rdData ∧
      t.cphase = .read ∧ (∀ a, memRead t.mem a = memRead s.mem a) ∧ t.head = s.head ∧ t.tail = s.tail ∧
      t.ovf = s.ovf ∧ t.trace = s.trace ∧ t.schedule = s.schedule ∧ t.hadReset = s.hadReset ∧ t.resets = s.resets) ∧
    (s.cphase ≠ .sampled → exec .popR s = .refused .consumerPhase)

/-- 41_consumer.md R132: POP.A. -/
def Obligations.PopAdvanceDelivers : Prop :=
  ∀ s : State, s.hadReset = true →
    (s.cphase = .read → ∃ t : State, exec .popA s = .next t ∧ t.tail.toNat = (s.tail.toNat + 1) % 256 ∧
      t.trace = s.trace ++ [Event.deliver s.rdLatch] ∧ t.cphase = .idle ∧ (∀ a, memRead t.mem a = memRead s.mem a) ∧
      t.head = s.head ∧ t.ovf = s.ovf ∧ t.rdLatch = s.rdLatch ∧ t.schedule = s.schedule ∧
      t.hadReset = s.hadReset ∧ t.resets = s.resets) ∧
    (s.cphase ≠ .read → exec .popA s = .refused .consumerPhase)

/-- 41_consumer.md R133: POP, and its equality with the split form. -/
def Obligations.PopFusesCompareReadAdvance : Prop :=
  ∀ s : State, s.hadReset = true →
    (s.cphase = .idle → ∃ t : State, exec .pop s = .next t ∧
      t.tail.toNat = (if s.head ≠ s.tail then (s.tail.toNat + 1) % 256 else s.tail.toNat) ∧
      t.rdLatch = (if s.head ≠ s.tail then loadSlot s.toBlock s.tail else s.rdLatch) ∧
      t.trace = s.trace ++ (if s.head ≠ s.tail then [Event.deliver (loadSlot s.toBlock s.tail)] else []) ∧
      t.cphase = .idle ∧ (∀ a, memRead t.mem a = memRead s.mem a) ∧ t.head = s.head ∧ t.ovf = s.ovf ∧
      t.schedule = s.schedule ∧ t.hadReset = s.hadReset ∧ t.resets = s.resets ∧
      runOps (if s.head ≠ s.tail then [.popS, .popR, .popA] else [Instr.popS]) s = .next t) ∧
    (s.cphase ≠ .idle → exec .pop s = .refused .consumerPhase)

/-- 41_consumer.md R135: reading an empty buffer changes nothing. -/
def Obligations.EmptyReadChangesNothing : Prop :=
  ∀ s : State, s.hadReset = true → s.cphase = .idle → s.head = s.tail →
    exec .popS s = .next s ∧ exec .pop s = .next s

/-- 00_scope.md R6 with 41_consumer.md R130 to R133: the steps of one read at every index width of at least one bit, and POP as
the three together. Above `AW = 8` by the assumption of entry 18. -/
def Obligations.ConsumerStepsAtEveryWidth : Prop :=
  ∀ (aw : Nat) (s : Block aw), 1 ≤ aw → s.hadReset = true →
    (s.cphase = .idle → execAt .popS s = .next { s with cphase := if s.head ≠ s.tail then .sampled else .idle }) ∧
    (s.cphase = .sampled → execAt .popR s = .next { s with rdLatch := loadSlot s s.tail, cphase := .read }) ∧
    (s.cphase = .read → ∃ t : Block aw, t.tail.toNat = (s.tail.toNat + 1) % 2 ^ aw ∧
      execAt .popA s = .next { s with tail := t.tail, trace := s.trace ++ [Event.deliver s.rdLatch], cphase := .idle }) ∧
    (s.cphase = .idle → execAt .pop s = runOpsAt (if s.head ≠ s.tail then [.popS, .popR, .popA] else [Instr.popS]) s)

/-- 41_consumer.md R134: DRAIN with nothing pushed meanwhile delivers every unread byte, oldest first, and ends drained. -/
def Obligations.DrainDeliversEveryUnreadByte : Prop :=
  ∀ s : State, s.hadReset = true → s.cphase = .idle →
    exec (.drain []) s = .next { s with
      tail := s.head
      trace := s.trace ++ s.unread.map Event.deliver
      rdLatch := s.unread.getLast?.getD s.rdLatch }

/-- 30_encoding.md R93: DRAIN is `(POP.S POP.R POP.A)^k POP.S` with the schedule's PUSH tokens in its gaps, where `k` is the
number of comparisons that found a byte, each of which delivers one; it ends drained. The gaps as a part of the instruction are
the model's choice (entry 8). -/
def Obligations.DrainRunsItsExpansion : Prop :=
  ∀ (gaps : List (List Byte)) (s : State), s.hadReset = true → s.cphase = .idle →
    ∃ (t : State) (k : Nat), exec (.drain gaps) s = .next t ∧ runOps (drainOps k gaps) s = .next t ∧
      t.delivered.length = s.delivered.length + k ∧ t.drained = true

/-- 30_encoding.md R94: DRAIN.F is `POP^(k+1)`, the last delivering nothing; with no PUSH in between `k` is COUNT and DRAIN gives
the same state. The gaps are the model's choice (entry 8). -/
def Obligations.DrainFusedRunsItsExpansion : Prop :=
  ∀ (gaps : List (List Byte)) (s : State), s.hadReset = true → s.cphase = .idle →
    ∃ (t : State) (k : Nat), exec (.drainF gaps) s = .next t ∧ runOps (drainFOps k gaps) s = .next t ∧
      t.delivered.length = s.delivered.length + k ∧ t.drained = true ∧
      ((∀ g ∈ gaps, g = []) → k = s.count.toNat ∧ exec (.drain gaps) s = .next t)

/-- 70_reset_and_hazards.md R222: the expansion of DRAIN with a PUSH in each third gap, from a state with a byte to read, goes on
for ever: every comparison finds a byte, none is refused, and each round delivers one. Above `AW = 8` by the assumption of entry 18. -/
def Obligations.DrainNeedNotEnd : Prop :=
  ∀ (aw : Nat) (f : Nat → Byte) (s : Block aw), 1 ≤ aw → s.hadReset = true → s.cphase = .idle → s.head ≠ s.tail →
    let sch := Schedule.infinite (fun n =>
      if n % 4 = 0 then 0x200 else if n % 4 = 1 then 0x300 else if n % 4 = 2 then 0x400 else makeToken 0x1 (f (n / 4)))
    sch.Admissible s ∧
    ∀ n, ∃ t, sch.runFirst (4 * n + 1) s = .next t ∧ t.cphase = .sampled ∧
      t.delivered.length = s.delivered.length + n

/-! ### What no operation does -/

/-- 10_state.md R24: an operation other than RESET changes a pointer only to its successor. -/
def Obligations.PointersMoveOnlyByOne : Prop :=
  ∀ (i : Instr) (s t : State), i.isCore = true → i ≠ .reset → exec i s = .next t →
    (t.head = s.head ∨ t.head.toNat = (s.head.toNat + 1) % 256) ∧
    (t.tail = s.tail ∨ t.tail.toNat = (s.tail.toNat + 1) % 256) ∧ (t.head = s.head ∨ t.tail = s.tail)

/-- 60_exceptions.md R188, 20_memory.md R58: an operation that an agent may perform writes nothing that the agent may not write.
The producer writes the slot at `head` alone and only sets `ovf`; the host writes through RESET alone; the schedule and, but for
RESET, what the model adds to the block stay. That no one agent performs a DRAIN or DRAIN.F with PUSH bytes in its gaps is the
model's choice of entry 16. -/
def Obligations.AgentsKeepToTheirCapabilities : Prop :=
  ∀ (a : Agent) (i : Instr) (s t : State), mayPerform a i = true → exec i s = .next t →
    (∀ p, mayWrite a p = false → pieceUnchanged p s.toBlock t.toBlock) ∧
    (a = .producer → (s.ovf = true → t.ovf = true) ∧
      (i.isCore = true → ∀ x, x ≠ s.head.toNat → memRead t.mem x = memRead s.mem x)) ∧
    (a = .host → i ≠ .reset → t = s) ∧ t.schedule = s.schedule ∧
    (i ≠ .reset → t.resets = s.resets ∧ t.hadReset = s.hadReset ∧ ∃ more, t.trace = s.trace ++ more)

/-- 60_exceptions.md R188 and R190: what an operation does to the block depends on nothing that its agent may not read. In two
states that read the same to the producer a PUSH does the same; in two that read the same to the consumer, with the same `cphase`
and `rd_latch` of its own, a consumer operation does the same. Above `AW = 8` by the assumption of entry 18. -/
def Obligations.OperationsReadOnlyTheirView : Prop :=
  ∀ (aw : Nat) (s t : Block aw), s.hadReset = true → t.hadReset = true →
    (sameView .producer s t → ∀ b, ∃ s' t' more, execAt (.push b) s = .next s' ∧ execAt (.push b) t = .next t' ∧
      s'.head = t'.head ∧ (∀ a, memRead s.mem a = memRead t.mem a → memRead s'.mem a = memRead t'.mem a) ∧
      (s.ovf = t.ovf → s'.ovf = t'.ovf) ∧ s'.trace = s.trace ++ more ∧ t'.trace = t.trace ++ more) ∧
    (sameView .consumer s t → s.cphase = t.cphase → s.rdLatch = t.rdLatch →
      ∀ i ∈ [Instr.popS, Instr.popR, Instr.popA, Instr.pop],
        (∃ s' t' more, execAt i s = .next s' ∧ execAt i t = .next t' ∧ s'.tail = t'.tail ∧ s'.cphase = t'.cphase ∧
          s'.rdLatch = t'.rdLatch ∧ s'.trace = s.trace ++ more ∧ t'.trace = t.trace ++ more) ∨
        (∃ r, execAt i s = .refused r ∧ execAt i t = .refused r))

/-! ### Derived values and outputs -/

/-- 10_state.md R29 to R31 for every index width of at least one bit: the two forms of FULL, EMPTY and FULL in COUNT, and COUNT
as a distance. -/
def Obligations.DerivedValuesForEveryWidth : Prop :=
  ∀ (aw : Nat) (head tail : BitVec aw), 1 ≤ aw →
    (emptyAt head tail = true ↔ head = tail) ∧
    (fullAt head tail = true ↔ head = tail - 1) ∧
    (fullAt head tail = true ↔ (head.toNat + 1) % 2 ^ aw = tail.toNat) ∧
    ((countAt head tail).toNat = (head.toNat + 2 ^ aw - tail.toNat) % 2 ^ aw) ∧
    (emptyAt head tail = true ↔ (countAt head tail).toNat = 0) ∧
    (fullAt head tail = true ↔ (countAt head tail).toNat = 2 ^ aw - 1) ∧
    ¬ (emptyAt head tail = true ∧ fullAt head tail = true)

/-- 10_state.md R32: FREE is the number of pushes that can be made before a push finds FULL. -/
def Obligations.FreeCountsTheSilentPushes : Prop :=
  (∀ (bs : List Byte) (s : State), noneFindsFull bs s.toBlock = true ↔ bs.length ≤ s.free.toNat) ∧
  (∀ s : State, s.free.toNat = 255 - s.count.toNat) ∧ State.reset.free.toNat = 255

/-- 42_control.md R162 to R164: the level outputs. -/
def Obligations.LevelOutputsShowTheState : Prop :=
  ∀ s : State, (portLevels s.toBlock).rdEmpty = decide (s.head = s.tail) ∧
    (portLevels s.toBlock).wrFull = decide ((s.head.toNat + 1) % 256 = s.tail.toNat) ∧
    (portLevels s.toBlock).wrFull = decide ((portLevels s.toBlock).count.toNat = 255) ∧
    (portLevels s.toBlock).count.toNat = (s.head.toNat + 256 - s.tail.toNat) % 256

/-- 42_control.md R165: the `ovf` output, and `wr_overrun` once per PUSH that found FULL. -/
def Obligations.OverrunOutputsFollowThePushes : Prop :=
  ∀ (i : Instr) (s t : State), i.isCore = true → exec i s = .next t →
    (portLevels t.toBlock).ovf = t.ovf ∧
    (i = .reset → t.ovf = false ∧ overrunPulses t.toBlock = 0) ∧
    ((∃ b, i = .push b) → s.isFull = true → t.ovf = true ∧ overrunPulses t.toBlock = overrunPulses s.toBlock + 1) ∧
    (i ≠ .reset → ((∃ b, i = .push b) → s.isFull = false) → t.ovf = s.ovf ∧ overrunPulses t.toBlock = overrunPulses s.toBlock)

/-! ### Invariants -/

/-- The invariant of Safety.lean is kept by every step and by every operation. -/
def Obligations.EveryStepKeepsTheInvariant : Prop :=
  (∀ s t : State, BlockInv s.toBlock → step s = .next t → BlockInv t.toBlock) ∧
  (∀ (i : Instr) (s t : State), BlockInv s.toBlock → exec i s = .next t → BlockInv t.toBlock)

/-- The same at every index width of at least one bit (00_scope.md R6). Above `AW = 8` by the assumption of entry 18. -/
def Obligations.EveryWidthKeepsTheInvariant : Prop :=
  ∀ aw : Nat, 1 ≤ aw → BlockInv (Block.reset aw) ∧
    ∀ (i : Instr) (s t : Block aw), BlockInv s → execAt i s = .next t → BlockInv t

/-- The invariant holds right after reset. -/
def Obligations.InvariantHoldsAtReset : Prop := BlockInv State.reset.toBlock

/-- 10_state.md R37: what POP.R or POP reads, a push has written. -/
def Obligations.ConsumerReadsOnlyWrittenSlots : Prop :=
  ∀ s : State, BlockInv s.toBlock →
    (s.cphase = .sampled → s.written s.tail.toNat) ∧
    (s.cphase = .idle → s.head ≠ s.tail → s.written s.tail.toNat)

/-- 40_producer.md R116, 10_state.md R26: over every run from a RESET, `ovf` is the disjunction of the OVERRUN events since
the last RESET. -/
def Obligations.OvfIsTheDisjunctionOfOverruns : Prop :=
  ∀ (is : List Instr) (s t : State), runOps (.reset :: is) s = .next t →
    (t.ovf = true ↔ Event.overrun ∈ t.trace)

/-! ### First in, first out -/

/-- The first-in first-out invariant, with the ghost history of the bytes pushed, is kept by every operation with a token. -/
def Obligations.EveryOperationKeepsTheFifoInvariant : Prop :=
  ∀ (pushed : List Byte) (i : Instr) (s t : State), i.isCore = true → FifoInv pushed s.toBlock → exec i s = .next t →
    FifoInv (historyAfter i pushed) t.toBlock

/-- It holds right after reset, with nothing pushed. -/
def Obligations.FifoInvariantHoldsAtReset : Prop := FifoInv [] State.reset.toBlock

/-- 41_consumer.md R139: without an overrun the deliveries are a prefix of the pushes, and in IDLE the rest is what waits in
the slots. -/
def Obligations.DeliveriesAreAPrefixOfPushes : Prop :=
  ∀ (pushed : List Byte) (s : State), FifoInv pushed s.toBlock → s.ovf = false →
    s.delivered <+: pushed ∧
    (s.cphase = .idle → s.delivered ++ s.unread = pushed ∧ s.unread.length = s.count.toNat) ∧
    (s.head = s.tail → s.delivered = pushed)

/-- 41_consumer.md R140: which byte a delivery delivers, lap or not. -/
def Obligations.DeliveredByteIsTheLatestPushOfItsSlot : Prop :=
  ∀ (pushed : List Byte) (s t : State), FifoInv pushed s.toBlock →
    (exec .pop s = .next t → s.head ≠ s.tail →
      ∃ b, pushed[latestPush Config.DEPTH s.delivered.length pushed.length]? = some b ∧ t.trace = s.trace ++ [Event.deliver b]) ∧
    (exec .popR s = .next t → pushed[latestPush Config.DEPTH s.delivered.length pushed.length]? = some t.rdLatch)

/-- 70_reset_and_hazards.md R221: over every run from a RESET, lap or not, delivered bytes are in push order. -/
def Obligations.DeliveriesAreInPushOrder : Prop :=
  ∀ (is : List Instr) (s t : State), (∀ i ∈ is, i.isCore = true) → runOps (.reset :: is) s = .next t →
    let pushed := is.foldl (fun h i => historyAfter i h) []
    ∃ idx : List Nat, idx.Pairwise (· < ·) ∧ (∀ n ∈ idx, n < pushed.length) ∧
      t.delivered = idx.map (fun n => pushed.getD n 0)

/-! ### The two agents together -/

/-- 20_memory.md R66: pushes that find the buffer not full do not write the slot the consumer is about to read; after one that
finds it full, the next writes that slot. -/
def Obligations.PushesWithoutOverrunKeepTheSampledSlot : Prop :=
  (∀ (bs : List Byte) (s : State), s.hadReset = true → s.head ≠ s.tail → noneFindsFull bs s.toBlock = true →
    ∃ t : State, runOps (pushOps bs) s = .next t ∧ memRead t.mem s.tail.toNat = memRead s.mem s.tail.toNat ∧
      t.tail = s.tail ∧ 1 ≤ t.count.toNat ∧ t.count.toNat = s.count.toNat + bs.length) ∧
  (∀ (b1 b2 : Byte) (s : State), s.hadReset = true → s.isFull = true →
    ∃ t u : State, exec (.push b1) s = .next t ∧ t.head = s.tail ∧ exec (.push b2) t = .next u ∧
      memRead u.mem s.tail.toNat = some b2)

/-- 41_consumer.md R138: a split read with pushes in its gaps, none of which finds FULL, is a fused POP in the place of
POP.A. -/
def Obligations.SplitReadLinearisesWithoutOverrun : Prop :=
  ∀ (first second : List Byte) (s : State), s.hadReset = true → s.cphase = .idle → s.head ≠ s.tail →
    noneFindsFull (first ++ second) s.toBlock = true →
    ∃ t : State, runOps ([Instr.popS] ++ pushOps first ++ [Instr.popR] ++ pushOps second ++ [Instr.popA]) s = .next t ∧
      runOps (pushOps first ++ pushOps second ++ [Instr.pop]) s = .next t

/-- 41_consumer.md R141: a lap is exactly a PUSH that found FULL, and emits OVERRUN, in every phase; with the consumer in IDLE it
leaves nothing to deliver. -/
def Obligations.LapWithTheConsumerIdleDeliversNothing : Prop :=
  ∀ (b : Byte) (s : State), s.hadReset = true →
    ∃ t : State, exec (.push b) s = .next t ∧ (t.head = t.tail ↔ s.isFull = true) ∧
      (t.head = t.tail → t.trace = s.trace ++ [Event.overrun] ∧
        (s.cphase = .idle → exec .popS t = .next t ∧ exec (.drain []) t = .next t ∧ exec .pop t = .next t))

/-- 41_consumer.md R142, cases A, B and C: the lap by `b1` with a read in progress. In SAMPLED `before` is pushed after `b1` and
before POP.R, and `after` between POP.R and POP.A, so that the pushes after `b1` are `before ++ after`: none in case A, `b2` pushed
in SAMPLED in case B (`before` not empty), `b2` pushed in READ in case C (`before` empty). In READ all of them come before
POP.A. -/
def Obligations.LapWithAReadInProgress : Prop :=
  ∀ (b1 : Byte) (before after : List Byte) (s : State), s.hadReset = true → s.isFull = true →
    before.length + after.length ≤ 255 →
    let left (t : State) : Prop :=
      t.unread = (if before ++ after = [] then s.unread.tail ++ [b1] else (before ++ after).tail) ∧
      (before ++ after = [] → t.isFull = true) ∧ t.ovf = true
    (s.cphase = .sampled → ∃ t : State,
      runOps (pushOps (b1 :: before) ++ [Instr.popR] ++ pushOps after ++ [Instr.popA]) s = .next t ∧ left t ∧
      t.trace = s.trace ++ [Event.overrun, Event.deliver (before.getD 0 (s.unread.getD 0 0))]) ∧
    (s.cphase = .read → ∃ t : State, runOps (pushOps (b1 :: (before ++ after)) ++ [Instr.popA]) s = .next t ∧ left t ∧
      t.trace = s.trace ++ [Event.overrun, Event.deliver s.rdLatch])

/-! ### The text form -/

/-- 30_encoding.md R92, R95: the examples of the assembler's rules. -/
def Obligations.AssemblerReadsTheExamples : Prop :=
  assembleLine ['P', 'U', 'S', 'H', ' ', '0', 'x', '4', '1'] = .ok (some (.push 0x41)) ∧
  assembleLine ['P', 'U', 'S', 'H', ' ', '\'', 'A', '\''] = .ok (some (.push 0x41)) ∧
  assembleLine ['P', 'U', 'S', 'H', ' ', '6', '5'] = .ok (some (.push 0x41)) ∧
  encode (.push 0x41) = some 0x141 ∧
  assembleLine ['P', 'U', 'S', 'H', '.', 'S', ' ', quoteChar, '0', 'a', '\\', 'r', quoteChar] =
    .ok (some (.pushS [0x30, 0x61, 0x0D])) ∧
  operationTokens (.pushS [0x30, 0x61, 0x0D]) = some [0x130, 0x161, 0x10D]
end

