-- ==== Sys2Proof/Laws/State.lean ====
section
/-! SUPPORT. What each field is after each update of the block, one lemma per field per update. -/

namespace Sys2Proof.Machine

variable {aw : Nat}

/-! ### storeSlot -/

@[simp] theorem storeSlot_mem (s : Block aw) (i : Index aw) (b : Byte) : (storeSlot s i b).mem = memWrite s.mem i.toNat b := rfl
@[simp] theorem storeSlot_head (s : Block aw) (i : Index aw) (b : Byte) : (storeSlot s i b).head = s.head := rfl
@[simp] theorem storeSlot_tail (s : Block aw) (i : Index aw) (b : Byte) : (storeSlot s i b).tail = s.tail := rfl
@[simp] theorem storeSlot_ovf (s : Block aw) (i : Index aw) (b : Byte) : (storeSlot s i b).ovf = s.ovf := rfl
@[simp] theorem storeSlot_cphase (s : Block aw) (i : Index aw) (b : Byte) : (storeSlot s i b).cphase = s.cphase := rfl
@[simp] theorem storeSlot_rdLatch (s : Block aw) (i : Index aw) (b : Byte) : (storeSlot s i b).rdLatch = s.rdLatch := rfl
@[simp] theorem storeSlot_trace (s : Block aw) (i : Index aw) (b : Byte) : (storeSlot s i b).trace = s.trace := rfl
@[simp] theorem storeSlot_hadReset (s : Block aw) (i : Index aw) (b : Byte) : (storeSlot s i b).hadReset = s.hadReset := rfl
@[simp] theorem storeSlot_resets (s : Block aw) (i : Index aw) (b : Byte) : (storeSlot s i b).resets = s.resets := rfl

/-! ### setHead -/

@[simp] theorem setHead_mem (s : Block aw) (v : Index aw) : (setHead s v).mem = s.mem := rfl
@[simp] theorem setHead_head (s : Block aw) (v : Index aw) : (setHead s v).head = v := rfl
@[simp] theorem setHead_tail (s : Block aw) (v : Index aw) : (setHead s v).tail = s.tail := rfl
@[simp] theorem setHead_ovf (s : Block aw) (v : Index aw) : (setHead s v).ovf = s.ovf := rfl
@[simp] theorem setHead_cphase (s : Block aw) (v : Index aw) : (setHead s v).cphase = s.cphase := rfl
@[simp] theorem setHead_rdLatch (s : Block aw) (v : Index aw) : (setHead s v).rdLatch = s.rdLatch := rfl
@[simp] theorem setHead_trace (s : Block aw) (v : Index aw) : (setHead s v).trace = s.trace := rfl
@[simp] theorem setHead_hadReset (s : Block aw) (v : Index aw) : (setHead s v).hadReset = s.hadReset := rfl
@[simp] theorem setHead_resets (s : Block aw) (v : Index aw) : (setHead s v).resets = s.resets := rfl

/-! ### setTail -/

@[simp] theorem setTail_mem (s : Block aw) (v : Index aw) : (setTail s v).mem = s.mem := rfl
@[simp] theorem setTail_head (s : Block aw) (v : Index aw) : (setTail s v).head = s.head := rfl
@[simp] theorem setTail_tail (s : Block aw) (v : Index aw) : (setTail s v).tail = v := rfl
@[simp] theorem setTail_ovf (s : Block aw) (v : Index aw) : (setTail s v).ovf = s.ovf := rfl
@[simp] theorem setTail_cphase (s : Block aw) (v : Index aw) : (setTail s v).cphase = s.cphase := rfl
@[simp] theorem setTail_rdLatch (s : Block aw) (v : Index aw) : (setTail s v).rdLatch = s.rdLatch := rfl
@[simp] theorem setTail_trace (s : Block aw) (v : Index aw) : (setTail s v).trace = s.trace := rfl
@[simp] theorem setTail_hadReset (s : Block aw) (v : Index aw) : (setTail s v).hadReset = s.hadReset := rfl
@[simp] theorem setTail_resets (s : Block aw) (v : Index aw) : (setTail s v).resets = s.resets := rfl

/-! ### setPhase -/

@[simp] theorem setPhase_mem (s : Block aw) (p : Phase) : (setPhase s p).mem = s.mem := rfl
@[simp] theorem setPhase_head (s : Block aw) (p : Phase) : (setPhase s p).head = s.head := rfl
@[simp] theorem setPhase_tail (s : Block aw) (p : Phase) : (setPhase s p).tail = s.tail := rfl
@[simp] theorem setPhase_ovf (s : Block aw) (p : Phase) : (setPhase s p).ovf = s.ovf := rfl
@[simp] theorem setPhase_cphase (s : Block aw) (p : Phase) : (setPhase s p).cphase = p := rfl
@[simp] theorem setPhase_rdLatch (s : Block aw) (p : Phase) : (setPhase s p).rdLatch = s.rdLatch := rfl
@[simp] theorem setPhase_trace (s : Block aw) (p : Phase) : (setPhase s p).trace = s.trace := rfl
@[simp] theorem setPhase_hadReset (s : Block aw) (p : Phase) : (setPhase s p).hadReset = s.hadReset := rfl
@[simp] theorem setPhase_resets (s : Block aw) (p : Phase) : (setPhase s p).resets = s.resets := rfl

/-! ### setLatch -/

@[simp] theorem setLatch_mem (s : Block aw) (b : Byte) : (setLatch s b).mem = s.mem := rfl
@[simp] theorem setLatch_head (s : Block aw) (b : Byte) : (setLatch s b).head = s.head := rfl
@[simp] theorem setLatch_tail (s : Block aw) (b : Byte) : (setLatch s b).tail = s.tail := rfl
@[simp] theorem setLatch_ovf (s : Block aw) (b : Byte) : (setLatch s b).ovf = s.ovf := rfl
@[simp] theorem setLatch_cphase (s : Block aw) (b : Byte) : (setLatch s b).cphase = s.cphase := rfl
@[simp] theorem setLatch_rdLatch (s : Block aw) (b : Byte) : (setLatch s b).rdLatch = b := rfl
@[simp] theorem setLatch_trace (s : Block aw) (b : Byte) : (setLatch s b).trace = s.trace := rfl
@[simp] theorem setLatch_hadReset (s : Block aw) (b : Byte) : (setLatch s b).hadReset = s.hadReset := rfl
@[simp] theorem setLatch_resets (s : Block aw) (b : Byte) : (setLatch s b).resets = s.resets := rfl

/-! ### emit -/

@[simp] theorem emit_mem (s : Block aw) (e : Event) : (emit s e).mem = s.mem := rfl
@[simp] theorem emit_head (s : Block aw) (e : Event) : (emit s e).head = s.head := rfl
@[simp] theorem emit_tail (s : Block aw) (e : Event) : (emit s e).tail = s.tail := rfl
@[simp] theorem emit_ovf (s : Block aw) (e : Event) : (emit s e).ovf = s.ovf := rfl
@[simp] theorem emit_cphase (s : Block aw) (e : Event) : (emit s e).cphase = s.cphase := rfl
@[simp] theorem emit_rdLatch (s : Block aw) (e : Event) : (emit s e).rdLatch = s.rdLatch := rfl
@[simp] theorem emit_trace (s : Block aw) (e : Event) : (emit s e).trace = s.trace ++ [e] := rfl
@[simp] theorem emit_hadReset (s : Block aw) (e : Event) : (emit s e).hadReset = s.hadReset := rfl
@[simp] theorem emit_resets (s : Block aw) (e : Event) : (emit s e).resets = s.resets := rfl

/-! ### signalOverrun -/

@[simp] theorem signalOverrun_mem (s : Block aw) : (signalOverrun s).mem = s.mem := rfl
@[simp] theorem signalOverrun_head (s : Block aw) : (signalOverrun s).head = s.head := rfl
@[simp] theorem signalOverrun_tail (s : Block aw) : (signalOverrun s).tail = s.tail := rfl
@[simp] theorem signalOverrun_ovf (s : Block aw) : (signalOverrun s).ovf = true := rfl
@[simp] theorem signalOverrun_cphase (s : Block aw) : (signalOverrun s).cphase = s.cphase := rfl
@[simp] theorem signalOverrun_rdLatch (s : Block aw) : (signalOverrun s).rdLatch = s.rdLatch := rfl
@[simp] theorem signalOverrun_trace (s : Block aw) : (signalOverrun s).trace = s.trace ++ [.overrun] := rfl
@[simp] theorem signalOverrun_hadReset (s : Block aw) : (signalOverrun s).hadReset = s.hadReset := rfl
@[simp] theorem signalOverrun_resets (s : Block aw) : (signalOverrun s).resets = s.resets := rfl

/-! ### resetBlock -/

@[simp] theorem resetBlock_mem (s : Block aw) : (resetBlock s).mem = [] := rfl
@[simp] theorem resetBlock_head (s : Block aw) : (resetBlock s).head = 0 := rfl
@[simp] theorem resetBlock_tail (s : Block aw) : (resetBlock s).tail = 0 := rfl
@[simp] theorem resetBlock_ovf (s : Block aw) : (resetBlock s).ovf = false := rfl
@[simp] theorem resetBlock_cphase (s : Block aw) : (resetBlock s).cphase = .idle := rfl
@[simp] theorem resetBlock_rdLatch (s : Block aw) : (resetBlock s).rdLatch = Config.resetLatch (s.resets + 1) := rfl
@[simp] theorem resetBlock_trace (s : Block aw) : (resetBlock s).trace = [] := rfl
@[simp] theorem resetBlock_hadReset (s : Block aw) : (resetBlock s).hadReset = true := rfl
@[simp] theorem resetBlock_resets (s : Block aw) : (resetBlock s).resets = s.resets + 1 := rfl

/-! ### Right after a RESET -/

@[simp] theorem Block.reset_mem (aw : Nat) : (Block.reset aw).mem = [] := rfl
@[simp] theorem Block.reset_head (aw : Nat) : (Block.reset aw).head = 0 := rfl
@[simp] theorem Block.reset_tail (aw : Nat) : (Block.reset aw).tail = 0 := rfl
@[simp] theorem Block.reset_ovf (aw : Nat) : (Block.reset aw).ovf = false := rfl
@[simp] theorem Block.reset_cphase (aw : Nat) : (Block.reset aw).cphase = .idle := rfl
@[simp] theorem Block.reset_trace (aw : Nat) : (Block.reset aw).trace = [] := rfl
@[simp] theorem Block.reset_hadReset (aw : Nat) : (Block.reset aw).hadReset = true := rfl

/-! ### The state of this hardware -/

@[simp] theorem reset_toBlock : State.reset.toBlock = Block.reset Config.AW := rfl
@[simp] theorem reset_schedule : State.reset.schedule = [] := rfl

/-- A state is its block and its schedule. -/
theorem state_eq_iff (s t : State) : s = t ↔ s.toBlock = t.toBlock ∧ s.schedule = t.schedule := by
  cases s; cases t; simp

end Sys2Proof.Machine
end

