-- ==== Sys2Proof/Laws/Memory.lean ====
section
/-! SUPPORT. The slot array: read after write, and the canonical form that every operation on it keeps. -/

namespace Sys2Proof.Machine

variable {aw : Nat}

theorem memRead_memWrite (m : Memory) (a b : Nat) (v : Byte) :
    memRead (memWrite m a v) b = if b = a then some v else memRead m b := by
  induction m with
  | nil => simp [memWrite, memRead]
  | cons cell m ih =>
    obtain ⟨c, w⟩ := cell
    unfold memWrite
    split
    · simp only [memRead]
    · split
      · subst c; simp only [memRead]; split <;> rfl
      · simp only [memRead, ih]
        by_cases hbc : b = c
        · subst hbc
          simp only [if_true]
          rw [if_neg (fun h => by omega)]
        · simp only [hbc, if_false]

@[simp] theorem memRead_memWrite_same (m : Memory) (a : Nat) (v : Byte) :
    memRead (memWrite m a v) a = some v := by
  rw [memRead_memWrite, if_pos rfl]

theorem memRead_memWrite_other (m : Memory) {a b : Nat} (v : Byte) (h : b ≠ a) :
    memRead (memWrite m a v) b = memRead m b := by
  rw [memRead_memWrite, if_neg h]

theorem memRisingFrom_memWrite (m : Memory) (depth low a : Nat) (v : Byte) (hm : memRisingFrom depth low m = true)
    (hlow : low ≤ a) (ha : a < depth) : memRisingFrom depth low (memWrite m a v) = true := by
  induction m generalizing low with
  | nil => simp [memWrite, memRisingFrom, hlow, ha]
  | cons cell m ih =>
    obtain ⟨c, w⟩ := cell
    simp only [memRisingFrom, Bool.and_eq_true, decide_eq_true_eq] at hm
    obtain ⟨⟨hc, hd⟩, hrest⟩ := hm
    unfold memWrite
    split
    · simp only [memRisingFrom, Bool.and_eq_true, decide_eq_true_eq]
      exact ⟨⟨hlow, ha⟩, ⟨by omega, hd⟩, hrest⟩
    · split
      · subst c; simp only [memRisingFrom, Bool.and_eq_true, decide_eq_true_eq]
        exact ⟨⟨hlow, ha⟩, hrest⟩
      · simp only [memRisingFrom, Bool.and_eq_true, decide_eq_true_eq]
        exact ⟨⟨hc, hd⟩, ih (c + 1) hrest (by omega)⟩

/-- A store keeps the canonical form (20_memory.md R51: every index is in range by construction). -/
theorem memWrite_wfAt (m : Memory) (i : Index aw) (v : Byte) (hm : Memory.wfAt aw m = true) :
    Memory.wfAt aw (memWrite m i.toNat v) = true :=
  memRisingFrom_memWrite m _ 0 i.toNat v hm (Nat.zero_le _) i.isLt

/-- As `memWrite_wfAt`, for this hardware. -/
theorem memWrite_wf (m : Memory) (i : Index Config.AW) (v : Byte) (hm : m.wf = true) :
    Memory.wf (memWrite m i.toNat v) = true :=
  memWrite_wfAt m i v hm

theorem emptyMemory_wfAt (aw : Nat) : Memory.wfAt aw [] = true := rfl

/-- A slot read right after a store to it gives the byte stored. -/
@[simp] theorem loadSlot_storeSlot_same (s : Block aw) (i : Index aw) (b : Byte) : loadSlot (storeSlot s i b) i = b := by
  simp [loadSlot]

theorem loadSlot_storeSlot_other (s : Block aw) {i j : Index aw} (b : Byte) (h : j ≠ i) :
    loadSlot (storeSlot s i b) j = loadSlot s j := by
  have hn : j.toNat ≠ i.toNat := fun e => h (BitVec.eq_of_toNat_eq e)
  simp [loadSlot, memRead_memWrite_other _ _ hn]

/-- What a load gives depends on the slots and the reset number alone. -/
theorem loadSlot_congr {s t : Block aw} (hm : t.mem = s.mem) (hr : t.resets = s.resets) (i : Index aw) :
    loadSlot t i = loadSlot s i := by
  simp only [loadSlot, hm, hr]

end Sys2Proof.Machine
end

