-- ==== Sys2Proof/Laws/Pointers.lean ====
section
/-! SUPPORT. Pointer arithmetic as arithmetic of naturals modulo DEPTH. -/

namespace Sys2Proof.Machine

variable {aw : Nat}

/-- DEPTH of this hardware as a numeral, for arithmetic. -/
theorem depth_eq : Config.DEPTH = 256 := rfl

/-- The mask of an index width changes nothing: a pointer is a number modulo `2^aw`. -/
@[simp] theorem advance_eq (x : BitVec aw) : advance x = x + 1 := by
  simp [advance, BitVec.and_allOnes]

@[simp] theorem countAt_eq (head tail : BitVec aw) : countAt head tail = head - tail := by
  simp [countAt, BitVec.and_allOnes]

theorem index_lt (x : Index aw) : x.toNat < Config.depthOf aw := x.isLt

theorem index_add_toNat (x : Index aw) (k : Nat) : (x + BitVec.ofNat aw k).toNat = (x.toNat + k) % Config.depthOf aw := by
  rw [BitVec.toNat_add, BitVec.toNat_ofNat, Nat.add_mod_mod]

theorem advance_toNat (x : Index aw) : (advance x).toNat = (x.toNat + 1) % Config.depthOf aw := by
  rw [advance_eq]; exact index_add_toNat x 1

/-- Two steps of a pointer are one step of their sum. -/
theorem index_add_add (x : Index aw) (j k : Nat) : x + BitVec.ofNat aw j + BitVec.ofNat aw k = x + BitVec.ofNat aw (j + k) := by
  rw [BitVec.add_assoc, BitVec.ofNat_add]

theorem index_eq_iff (x y : Index aw) : x = y ↔ x.toNat = y.toNat :=
  ⟨fun h => h ▸ rfl, BitVec.eq_of_toNat_eq⟩

theorem count_eq (s : Block aw) : s.count = s.head - s.tail := countAt_eq s.head s.tail

theorem count_toNat (s : Block aw) :
    s.count.toNat = (s.head.toNat + (Config.depthOf aw - s.tail.toNat)) % Config.depthOf aw := by
  rw [count_eq, BitVec.toNat_sub, Nat.add_comm]

/-- COUNT is the way from `tail` to `head`. -/
theorem count_spans (s : Block aw) : s.tail + BitVec.ofNat aw s.count.toNat = s.head := by
  rw [BitVec.ofNat_toNat, BitVec.setWidth_eq, count_eq, BitVec.add_comm, BitVec.sub_add_cancel]

theorem isEmpty_iff (s : Block aw) : s.isEmpty = true ↔ s.head = s.tail := by
  simp [Block.isEmpty, emptyAt]

theorem isEmpty_eq_false_iff (s : Block aw) : s.isEmpty = false ↔ s.head ≠ s.tail := by
  simp [Block.isEmpty, emptyAt]

theorem isFull_iff (s : Block aw) : s.isFull = true ↔ s.head + 1 = s.tail := by
  simp [Block.isFull, fullAt]

theorem isFull_eq_false_iff (s : Block aw) : s.isFull = false ↔ s.head + 1 ≠ s.tail := by
  simp [Block.isFull, fullAt]

/-- EMPTY in naturals. -/
theorem isEmpty_iff_toNat (s : Block aw) : s.isEmpty = true ↔ s.head.toNat = s.tail.toNat := by
  rw [isEmpty_iff, index_eq_iff]

/-- FULL in naturals. -/
theorem isFull_iff_toNat (s : Block aw) : s.isFull = true ↔ (s.head.toNat + 1) % Config.depthOf aw = s.tail.toNat := by
  rw [isFull_iff, index_eq_iff, ← advance_eq, advance_toNat]

end Sys2Proof.Machine
end

