-- ==== Sys2Proof/Laws/Producer.lean ====
section
/-! SUPPORT. What one PUSH step and a row of PUSH steps do, field by field. -/

namespace Sys2Proof.Machine

variable {aw : Nat}

/-- One PUSH step as one record. -/
theorem pushByte_eq (b : Byte) (s : Block aw) :
    pushByte b s =
      { s with
        mem := memWrite s.mem s.head.toNat b
        head := s.head + 1
        ovf := s.ovf || s.isFull
        trace := if s.isFull then s.trace ++ [.overrun] else s.trace } := by
  unfold pushByte
  split <;> rename_i h <;> simp [h, setHead, storeSlot, signalOverrun, emit]

@[simp] theorem pushByte_mem (b : Byte) (s : Block aw) : (pushByte b s).mem = memWrite s.mem s.head.toNat b := by
  rw [pushByte_eq]

@[simp] theorem pushByte_head (b : Byte) (s : Block aw) : (pushByte b s).head = s.head + 1 := by
  rw [pushByte_eq]

@[simp] theorem pushByte_tail (b : Byte) (s : Block aw) : (pushByte b s).tail = s.tail := by
  rw [pushByte_eq]

@[simp] theorem pushByte_ovf (b : Byte) (s : Block aw) : (pushByte b s).ovf = (s.ovf || s.isFull) := by
  rw [pushByte_eq]

@[simp] theorem pushByte_cphase (b : Byte) (s : Block aw) : (pushByte b s).cphase = s.cphase := by
  rw [pushByte_eq]

@[simp] theorem pushByte_rdLatch (b : Byte) (s : Block aw) : (pushByte b s).rdLatch = s.rdLatch := by
  rw [pushByte_eq]

@[simp] theorem pushByte_trace (b : Byte) (s : Block aw) :
    (pushByte b s).trace = if s.isFull then s.trace ++ [.overrun] else s.trace := by
  rw [pushByte_eq]

@[simp] theorem pushByte_hadReset (b : Byte) (s : Block aw) : (pushByte b s).hadReset = s.hadReset := by
  rw [pushByte_eq]

@[simp] theorem pushByte_resets (b : Byte) (s : Block aw) : (pushByte b s).resets = s.resets := by
  rw [pushByte_eq]

@[simp] theorem pushBytes_nil (s : Block aw) : pushBytes [] s = s := rfl

theorem pushBytes_cons (b : Byte) (bs : List Byte) (s : Block aw) :
    pushBytes (b :: bs) s = pushBytes bs (pushByte b s) := rfl

theorem pushBytes_append (as bs : List Byte) (s : Block aw) :
    pushBytes (as ++ bs) s = pushBytes bs (pushBytes as s) := by
  simp [pushBytes]

/-- What every PUSH step keeps, a row of them keeps. -/
theorem pushBytes_keeps {P : Block aw → Prop} (hstep : ∀ b s, P s → P (pushByte b s)) (bs : List Byte) {s : Block aw}
    (h : P s) : P (pushBytes bs s) := by
  induction bs generalizing s with
  | nil => exact h
  | cons b bs ih => exact ih (hstep b s h)

@[simp] theorem pushBytes_tail (bs : List Byte) (s : Block aw) : (pushBytes bs s).tail = s.tail :=
  pushBytes_keeps (P := fun t => t.tail = s.tail) (fun _ _ h => by simpa using h) bs rfl

@[simp] theorem pushBytes_cphase (bs : List Byte) (s : Block aw) : (pushBytes bs s).cphase = s.cphase :=
  pushBytes_keeps (P := fun t => t.cphase = s.cphase) (fun _ _ h => by simpa using h) bs rfl

@[simp] theorem pushBytes_rdLatch (bs : List Byte) (s : Block aw) : (pushBytes bs s).rdLatch = s.rdLatch :=
  pushBytes_keeps (P := fun t => t.rdLatch = s.rdLatch) (fun _ _ h => by simpa using h) bs rfl

@[simp] theorem pushBytes_hadReset (bs : List Byte) (s : Block aw) : (pushBytes bs s).hadReset = s.hadReset :=
  pushBytes_keeps (P := fun t => t.hadReset = s.hadReset) (fun _ _ h => by simpa using h) bs rfl

@[simp] theorem pushBytes_resets (bs : List Byte) (s : Block aw) : (pushBytes bs s).resets = s.resets :=
  pushBytes_keeps (P := fun t => t.resets = s.resets) (fun _ _ h => by simpa using h) bs rfl

theorem pushBytes_head (bs : List Byte) (s : Block aw) :
    (pushBytes bs s).head = s.head + BitVec.ofNat aw bs.length := by
  induction bs generalizing s with
  | nil => simp
  | cons b bs ih =>
    rw [pushBytes_cons, ih, pushByte_head, List.length_cons, Nat.add_comm bs.length, ← index_add_add]
    rfl

theorem pushBytes_head_toNat (bs : List Byte) (s : Block aw) :
    (pushBytes bs s).head.toNat = (s.head.toNat + bs.length) % Config.depthOf aw := by
  rw [pushBytes_head, index_add_toNat]

end Sys2Proof.Machine
end

