-- ==== Sys2Proof/Laws/Consumer.lean ====
section
/-! SUPPORT. What the consumer's steps do, field by field, and what the loops of DRAIN and DRAIN.F keep and reach. -/

namespace Sys2Proof.Machine

variable {aw : Nat}

/-! ### POP.S -/

/-- One POP.S step as one record. -/
theorem samplePointers_eq (s : Block aw) :
    samplePointers s = { s with cphase := if s.isEmpty then .idle else .sampled } := rfl

theorem samplePointers_of_empty {s : Block aw} (h : s.head = s.tail) : samplePointers s = { s with cphase := .idle } := by
  rw [samplePointers_eq, if_pos ((isEmpty_iff s).mpr h)]

theorem samplePointers_of_nonempty {s : Block aw} (h : s.head ≠ s.tail) :
    samplePointers s = { s with cphase := .sampled } := by
  rw [samplePointers_eq, if_neg (by rw [isEmpty_iff]; exact h)]

@[simp] theorem samplePointers_mem (s : Block aw) : (samplePointers s).mem = s.mem := rfl
@[simp] theorem samplePointers_head (s : Block aw) : (samplePointers s).head = s.head := rfl
@[simp] theorem samplePointers_tail (s : Block aw) : (samplePointers s).tail = s.tail := rfl
@[simp] theorem samplePointers_ovf (s : Block aw) : (samplePointers s).ovf = s.ovf := rfl
@[simp] theorem samplePointers_rdLatch (s : Block aw) : (samplePointers s).rdLatch = s.rdLatch := rfl
@[simp] theorem samplePointers_trace (s : Block aw) : (samplePointers s).trace = s.trace := rfl

@[simp] theorem samplePointers_hadReset (s : Block aw) : (samplePointers s).hadReset = s.hadReset := rfl
@[simp] theorem samplePointers_resets (s : Block aw) : (samplePointers s).resets = s.resets := rfl

theorem samplePointers_idle_iff (s : Block aw) : (samplePointers s).cphase = .idle ↔ s.head = s.tail := by
  rw [samplePointers_eq, ← isEmpty_iff]
  cases s.isEmpty <;> simp

/-! ### POP.R -/

/-- One POP.R step as one record. -/
theorem latchSlot_eq (s : Block aw) : latchSlot s = { s with rdLatch := loadSlot s s.tail, cphase := .read } := rfl

@[simp] theorem latchSlot_mem (s : Block aw) : (latchSlot s).mem = s.mem := rfl
@[simp] theorem latchSlot_head (s : Block aw) : (latchSlot s).head = s.head := rfl
@[simp] theorem latchSlot_tail (s : Block aw) : (latchSlot s).tail = s.tail := rfl
@[simp] theorem latchSlot_ovf (s : Block aw) : (latchSlot s).ovf = s.ovf := rfl
@[simp] theorem latchSlot_cphase (s : Block aw) : (latchSlot s).cphase = .read := rfl
@[simp] theorem latchSlot_rdLatch (s : Block aw) : (latchSlot s).rdLatch = loadSlot s s.tail := rfl
@[simp] theorem latchSlot_trace (s : Block aw) : (latchSlot s).trace = s.trace := rfl

@[simp] theorem latchSlot_hadReset (s : Block aw) : (latchSlot s).hadReset = s.hadReset := rfl
@[simp] theorem latchSlot_resets (s : Block aw) : (latchSlot s).resets = s.resets := rfl

/-! ### POP.A -/

/-- One POP.A step as one record. -/
theorem deliverLatch_eq (s : Block aw) :
    deliverLatch s = { s with tail := advance s.tail, trace := s.trace ++ [.deliver s.rdLatch], cphase := .idle } := rfl

@[simp] theorem deliverLatch_mem (s : Block aw) : (deliverLatch s).mem = s.mem := rfl
@[simp] theorem deliverLatch_head (s : Block aw) : (deliverLatch s).head = s.head := rfl
@[simp] theorem deliverLatch_tail (s : Block aw) : (deliverLatch s).tail = s.tail + 1 := advance_eq s.tail
@[simp] theorem deliverLatch_ovf (s : Block aw) : (deliverLatch s).ovf = s.ovf := rfl
@[simp] theorem deliverLatch_cphase (s : Block aw) : (deliverLatch s).cphase = .idle := rfl
@[simp] theorem deliverLatch_rdLatch (s : Block aw) : (deliverLatch s).rdLatch = s.rdLatch := rfl
@[simp] theorem deliverLatch_trace (s : Block aw) : (deliverLatch s).trace = s.trace ++ [.deliver s.rdLatch] := rfl

@[simp] theorem deliverLatch_hadReset (s : Block aw) : (deliverLatch s).hadReset = s.hadReset := rfl
@[simp] theorem deliverLatch_resets (s : Block aw) : (deliverLatch s).resets = s.resets := rfl

/-! ### POP -/

/-- One POP step on an empty buffer. -/
theorem popByte_of_empty {s : Block aw} (h : s.head = s.tail) : popByte s = { s with cphase := .idle } := by
  rw [popByte, if_pos ((isEmpty_iff s).mpr h)]; rfl

/-- One POP step that finds a byte. -/
theorem popByte_of_nonempty {s : Block aw} (h : s.head ≠ s.tail) :
    popByte s =
      { s with
        rdLatch := loadSlot s s.tail
        tail := advance s.tail
        trace := s.trace ++ [.deliver (loadSlot s s.tail)]
        cphase := .idle } := by
  rw [popByte, if_neg (by rw [isEmpty_iff]; exact h)]; rfl

@[simp] theorem popByte_mem (s : Block aw) : (popByte s).mem = s.mem := by unfold popByte; split <;> rfl
@[simp] theorem popByte_head (s : Block aw) : (popByte s).head = s.head := by unfold popByte; split <;> rfl
@[simp] theorem popByte_ovf (s : Block aw) : (popByte s).ovf = s.ovf := by unfold popByte; split <;> rfl
@[simp] theorem popByte_cphase (s : Block aw) : (popByte s).cphase = .idle := by unfold popByte; split <;> rfl

@[simp] theorem popByte_hadReset (s : Block aw) : (popByte s).hadReset = s.hadReset := by unfold popByte; split <;> rfl
@[simp] theorem popByte_resets (s : Block aw) : (popByte s).resets = s.resets := by unfold popByte; split <;> rfl

/-! ### The loops -/

/-- What POP.S, POP.R, POP.A and PUSH each keep, the loop of DRAIN keeps. POP.R is asked only in SAMPLED and POP.A only in
READ, where the loop performs them. -/
theorem drainLoop_keeps {P : Block aw → Prop} (hpush : ∀ b s, P s → P (pushByte b s))
    (hsample : ∀ s, s.cphase = .idle → P s → P (samplePointers s))
    (hlatch : ∀ s, s.cphase = .sampled → P s → P (latchSlot s))
    (hdeliver : ∀ s, s.cphase = .read → P s → P (deliverLatch s))
    (budget : Nat) (gaps : List (List Byte)) {s t : Block aw} (hidle : s.cphase = .idle) (h : P s)
    (ht : drainLoop budget gaps s = some t) : P t := by
  induction budget generalizing gaps s with
  | zero => cases ht
  | succ budget ih =>
    rw [drainLoop] at ht
    split at ht
    · cases ht; exact hsample s hidle h
    · rename_i hphase
      have hs : s.head ≠ s.tail := fun e => hphase ((samplePointers_idle_iff s).mpr e)
      have hsamp : (samplePointers s).cphase = .sampled := by rw [samplePointers_of_nonempty hs]
      refine ih (gaps.drop 3) ?_ ?_ ht
      · simp [drainRound]
      · exact pushBytes_keeps hpush _ (hdeliver _ (by simp) (pushBytes_keeps hpush _ (hlatch _ (by simpa using hsamp)
          (pushBytes_keeps hpush _ (hsample s hidle h)))))

/-- What POP and PUSH each keep, the loop of DRAIN.F keeps. -/
theorem drainFLoop_keeps {P : Block aw → Prop} (hpush : ∀ b s, P s → P (pushByte b s))
    (hpop : ∀ s, s.cphase = .idle → P s → P (popByte s)) (budget : Nat) (gaps : List (List Byte)) {s t : Block aw}
    (hidle : s.cphase = .idle) (h : P s) (ht : drainFLoop budget gaps s = some t) : P t := by
  induction budget generalizing gaps s with
  | zero => cases ht
  | succ budget ih =>
    rw [drainFLoop] at ht
    split at ht
    · cases ht; exact hpop s hidle h
    · exact ih (gaps.drop 1) (by simp) (pushBytes_keeps hpush _ (hpop s hidle h)) ht

theorem gapBytes_of_silent {gaps : List (List Byte)} (hg : ∀ g ∈ gaps, g = []) (n : Nat) : gapBytes gaps n = [] := by
  rw [gapBytes, List.getD_eq_getElem?_getD]
  cases h : gaps[n]? with
  | none => rfl
  | some g => exact hg g (List.mem_of_getElem? h)

/-- As `drainLoop_keeps`, with nothing pushed in the gaps. -/
theorem drainLoop_keeps_of_silent {P : Block aw → Prop} (hsample : ∀ s, s.cphase = .idle → P s → P (samplePointers s))
    (hlatch : ∀ s, s.cphase = .sampled → P s → P (latchSlot s))
    (hdeliver : ∀ s, s.cphase = .read → P s → P (deliverLatch s))
    (budget : Nat) {gaps : List (List Byte)} (hg : ∀ g ∈ gaps, g = []) {s t : Block aw} (hidle : s.cphase = .idle) (h : P s)
    (ht : drainLoop budget gaps s = some t) : P t := by
  induction budget generalizing gaps s with
  | zero => cases ht
  | succ budget ih =>
    rw [drainLoop] at ht
    split at ht
    · cases ht; exact hsample s hidle h
    · rename_i hphase
      have hs : s.head ≠ s.tail := fun e => hphase ((samplePointers_idle_iff s).mpr e)
      have hsamp : (samplePointers s).cphase = .sampled := by rw [samplePointers_of_nonempty hs]
      refine ih (fun g hmem => hg g (List.mem_of_mem_drop hmem)) ?_ ?_ ht
      · simp [drainRound]
      · simp only [drainRound, gapBytes_of_silent hg, pushBytes_nil]
        exact hdeliver _ rfl (hlatch _ hsamp (hsample s hidle h))

/-- As `drainFLoop_keeps`, with nothing pushed in the gaps. -/
theorem drainFLoop_keeps_of_silent {P : Block aw → Prop} (hpop : ∀ s, s.cphase = .idle → P s → P (popByte s))
    (budget : Nat) {gaps : List (List Byte)} (hg : ∀ g ∈ gaps, g = []) {s t : Block aw} (hidle : s.cphase = .idle) (h : P s)
    (ht : drainFLoop budget gaps s = some t) : P t := by
  induction budget generalizing gaps s with
  | zero => cases ht
  | succ budget ih =>
    rw [drainFLoop] at ht
    split at ht
    · cases ht; exact hpop s hidle h
    · refine ih (fun g hmem => hg g (List.mem_of_mem_drop hmem)) ?_ ?_ ht
      · simp
      · simp only [gapBytes_of_silent hg, pushBytes_nil]; exact hpop s hidle h

/-- The loop of DRAIN ends idle and empty: at its last comparison (41_consumer.md R134). -/
theorem drainLoop_ends (budget : Nat) (gaps : List (List Byte)) {s t : Block aw} (ht : drainLoop budget gaps s = some t) :
    t.cphase = .idle ∧ t.head = t.tail := by
  induction budget generalizing gaps s with
  | zero => cases ht
  | succ budget ih =>
    rw [drainLoop] at ht
    split at ht
    · rename_i hphase; cases ht
      exact ⟨hphase, (samplePointers_idle_iff s).mp hphase⟩
    · exact ih (gaps.drop 3) ht

/-- The loop of DRAIN.F ends idle and empty. -/
theorem drainFLoop_ends (budget : Nat) (gaps : List (List Byte)) {s t : Block aw} (ht : drainFLoop budget gaps s = some t) :
    t.cphase = .idle ∧ t.head = t.tail := by
  induction budget generalizing gaps s with
  | zero => cases ht
  | succ budget ih =>
    rw [drainFLoop] at ht
    split at ht
    · rename_i he; cases ht
      rw [isEmpty_iff] at he
      exact ⟨popByte_cphase s, by rw [popByte_of_empty he]; exact he⟩
    · exact ih (gaps.drop 1) ht

theorem gapBytes_split (gaps : List (List Byte)) :
    gaps.flatten.length = (gapBytes gaps 0).length + (gaps.drop 1).flatten.length := by
  cases gaps <;> simp [gapBytes]

theorem gapBytes_drop (gaps : List (List Byte)) (k n : Nat) : gapBytes (gaps.drop k) n = gapBytes gaps (k + n) := by
  simp [gapBytes]

theorem gapBytes_split3 (gaps : List (List Byte)) :
    gaps.flatten.length = (gapBytes gaps 0).length + (gapBytes gaps 1).length + (gapBytes gaps 2).length +
      (gaps.drop 3).flatten.length := by
  have h0 := gapBytes_split gaps
  have h1 := gapBytes_split (gaps.drop 1)
  have h2 := gapBytes_split (gaps.drop 2)
  simp only [gapBytes_drop, List.drop_drop, Nat.reduceAdd] at h1 h2
  omega

/-- One step less of a way that is not over. -/
theorem index_span_pred (x y : Index aw) (waiting : Nat) (hw : x + BitVec.ofNat aw waiting = y) (hne : y ≠ x) :
    waiting ≠ 0 ∧ x + 1 + BitVec.ofNat aw (waiting - 1) = y := by
  cases waiting with
  | zero => exact absurd (by simpa using hw.symm) hne
  | succ k => exact ⟨k.succ_ne_zero, by rw [← hw, Nat.add_comm k 1, ← index_add_add]; simp⟩

/-- The rounds of a loop are bounded by the bytes waiting at its start and the bytes pushed in its gaps: `waiting` is any
number of unread bytes that COUNT shows modulo DEPTH. -/
theorem drainLoop_isSome (budget : Nat) (gaps : List (List Byte)) (s : Block aw) (waiting : Nat)
    (hw : s.tail + BitVec.ofNat aw waiting = s.head) (hb : waiting + gaps.flatten.length < budget) :
    (drainLoop budget gaps s).isSome = true := by
  induction budget generalizing gaps s waiting with
  | zero => omega
  | succ budget ih =>
    rw [drainLoop]
    split
    · rfl
    · rename_i hphase
      obtain ⟨hpos, hw'⟩ := index_span_pred _ _ _ hw (fun e => hphase ((samplePointers_idle_iff s).mpr e))
      have hg := gapBytes_split3 gaps
      refine ih (gaps.drop 3) _
        (waiting - 1 + (gapBytes gaps 0).length + (gapBytes gaps 1).length + (gapBytes gaps 2).length) ?_ (by omega)
      simp [drainRound, pushBytes_head, ← hw', ← index_add_add]

/-- As `drainLoop_isSome`, for DRAIN.F. -/
theorem drainFLoop_isSome (budget : Nat) (gaps : List (List Byte)) (s : Block aw) (waiting : Nat)
    (hw : s.tail + BitVec.ofNat aw waiting = s.head) (hb : waiting + gaps.flatten.length < budget) :
    (drainFLoop budget gaps s).isSome = true := by
  induction budget generalizing gaps s waiting with
  | zero => omega
  | succ budget ih =>
    rw [drainFLoop]
    split
    · rfl
    · rename_i hempty
      have hne : s.head ≠ s.tail := fun e => hempty ((isEmpty_iff s).mpr e)
      obtain ⟨hpos, hw'⟩ := index_span_pred _ _ _ hw hne
      have hg := gapBytes_split gaps
      refine ih (gaps.drop 1) _ (waiting - 1 + (gapBytes gaps 0).length) ?_ (by omega)
      simp [popByte_of_nonempty hne, pushBytes_head, ← hw', ← index_add_add]

/-- The budget of DRAIN always suffices. -/
theorem drainBudget_suffices (gaps : List (List Byte)) (s : Block aw) :
    (drainLoop (drainBudget gaps s) gaps s).isSome = true :=
  drainLoop_isSome _ gaps s s.count.toNat (count_spans s) (Nat.lt_succ_self _)

/-- The budget of DRAIN.F always suffices. -/
theorem drainFBudget_suffices (gaps : List (List Byte)) (s : Block aw) :
    (drainFLoop (drainBudget gaps s) gaps s).isSome = true :=
  drainFLoop_isSome _ gaps s s.count.toNat (count_spans s) (Nat.lt_succ_self _)

end Sys2Proof.Machine
end

