-- ==== Sys2Proof/Laws/PerInstr.lean ====
section
/-! SUPPORT. The family `Encoding`: an operation with a token is read back from it; a pseudo-operation has none
(30_encoding.md R85, R93). -/

namespace Sys2Proof

/-- What the family says of one operation. -/
def Laws.Encoding.Statement (i : Instr) : Prop :=
  match encode i with
  | some t => decode t = .ok i ∧ i.isCore = true
  | none => i.isCore = false

theorem Laws.Encoding.nop : Laws.Encoding.Statement .nop := ⟨rfl, rfl⟩

theorem decode_makeToken_push (imm8 : Byte) : decode (makeToken 0x1 imm8) = .ok (.push imm8) := by
  revert imm8; decide +kernel

theorem Laws.Encoding.push (imm8 : Byte) : Laws.Encoding.Statement (.push imm8) :=
  ⟨decode_makeToken_push imm8, rfl⟩

theorem Laws.Encoding.popS : Laws.Encoding.Statement .popS := ⟨rfl, rfl⟩

theorem Laws.Encoding.popR : Laws.Encoding.Statement .popR := ⟨rfl, rfl⟩

theorem Laws.Encoding.popA : Laws.Encoding.Statement .popA := ⟨rfl, rfl⟩

theorem Laws.Encoding.pop : Laws.Encoding.Statement .pop := ⟨rfl, rfl⟩

theorem Laws.Encoding.reset : Laws.Encoding.Statement .reset := ⟨rfl, rfl⟩

theorem Laws.Encoding.drain (gaps : List (List Byte)) : Laws.Encoding.Statement (.drain gaps) := rfl

theorem Laws.Encoding.drainF (gaps : List (List Byte)) : Laws.Encoding.Statement (.drainF gaps) := rfl

theorem Laws.Encoding.pushS (text : List Byte) : Laws.Encoding.Statement (.pushS text) := rfl

theorem Laws.Encoding.pushN (n : Nat) (f : List Int) : Laws.Encoding.Statement (.pushN n f) := rfl

end Sys2Proof
end

