-- ==== Sys2Proof/Laws/Perform.lean ====
section
/-! SUPPORT. What the guards `perform` and `performLoop` can answer, each operation as its guard and its effect, and the
operations of this hardware as those of the block at `AW = 8`. -/

namespace Sys2Proof.Machine

variable {aw : Nat}

/-- When `perform` answers a next state, and which. -/
theorem perform_next_iff {admits : Phase → Bool} {effect : Block aw → Block aw} {s t : Block aw} :
    perform admits effect s = .next t ↔ s.hadReset = true ∧ admits s.cphase = true ∧ t = effect s := by
  unfold perform
  split
  · split <;> rename_i hr hp
    · exact ⟨fun h => ⟨hr, hp, (Host.Outcome.next.inj h).symm⟩, fun h => by rw [h.2.2]⟩
    · simp [hp]
  · rename_i hr; simp [hr]

theorem perform_of_admitted {admits : Phase → Bool} {effect : Block aw → Block aw} {s : Block aw} (hr : s.hadReset = true)
    (hp : admits s.cphase = true) : perform admits effect s = .next (effect s) :=
  perform_next_iff.mpr ⟨hr, hp, rfl⟩

theorem perform_no_fault {admits : Phase → Bool} {effect : Block aw → Block aw} {s : Block aw} {f : Fault} :
    perform admits effect s ≠ .fault f := by
  unfold perform
  split
  · split <;> simp
  · simp

/-- When `performLoop` answers a next state, and which. -/
theorem performLoop_next_iff {admits : Phase → Bool} {effect : Block aw → Option (Block aw)} {s t : Block aw} :
    performLoop admits effect s = .next t ↔ s.hadReset = true ∧ admits s.cphase = true ∧ effect s = some t := by
  unfold performLoop
  split
  · split
    · split <;> simp_all
    · simp_all
  · simp_all

theorem performLoop_of_admitted {admits : Phase → Bool} {effect : Block aw → Option (Block aw)} {s t : Block aw}
    (hr : s.hadReset = true) (hp : admits s.cphase = true) (ht : effect s = some t) :
    performLoop admits effect s = .next t :=
  performLoop_next_iff.mpr ⟨hr, hp, ht⟩

/-- Before the first RESET both guards refuse (10_state.md R44). -/
theorem perform_before_reset {admits : Phase → Bool} {effect : Block aw → Block aw} {s : Block aw} (hr : s.hadReset = false) :
    perform admits effect s = .refused .beforeReset := by
  simp [perform, hr]

theorem performLoop_before_reset {admits : Phase → Bool} {effect : Block aw → Option (Block aw)} {s : Block aw}
    (hr : s.hadReset = false) : performLoop admits effect s = .refused .beforeReset := by
  simp [performLoop, hr]

/-- Out of phase both guards refuse (30_encoding.md R91). -/
theorem perform_out_of_phase {admits : Phase → Bool} {effect : Block aw → Block aw} {s : Block aw} (hr : s.hadReset = true)
    (hp : admits s.cphase = false) : perform admits effect s = .refused .consumerPhase := by
  simp [perform, hr, hp]

theorem performLoop_out_of_phase {admits : Phase → Bool} {effect : Block aw → Option (Block aw)} {s : Block aw}
    (hr : s.hadReset = true) (hp : admits s.cphase = false) :
    performLoop admits effect s = .refused .consumerPhase := by
  simp [performLoop, hr, hp]

@[simp] theorem anyPhase_eq (p : Phase) : anyPhase p = true := rfl

@[simp] theorem onlyIn_iff (p q : Phase) : onlyIn p q = true ↔ q = p := by simp [onlyIn]

theorem onlyIn_false_iff (p q : Phase) : onlyIn p q = false ↔ q ≠ p := by simp [onlyIn]

/-! ### Each operation, at every index width -/

theorem execAt_nop (s : Block aw) : execAt .nop s = perform anyPhase id s := rfl

theorem execAt_push (b : Byte) (s : Block aw) : execAt (.push b) s = perform anyPhase (pushByte b) s := rfl

theorem execAt_popS (s : Block aw) : execAt .popS s = perform (onlyIn .idle) samplePointers s := rfl

theorem execAt_popR (s : Block aw) : execAt .popR s = perform (onlyIn .sampled) latchSlot s := rfl

theorem execAt_popA (s : Block aw) : execAt .popA s = perform (onlyIn .read) deliverLatch s := rfl

theorem execAt_pop (s : Block aw) : execAt .pop s = perform (onlyIn .idle) popByte s := rfl

theorem execAt_reset (s : Block aw) : execAt .reset s = .next (resetBlock s) := rfl

theorem execAt_drain (gaps : List (List Byte)) (s : Block aw) :
    execAt (.drain gaps) s = performLoop (onlyIn .idle) (fun s => drainLoop (drainBudget gaps s) gaps s) s := rfl

theorem execAt_drainF (gaps : List (List Byte)) (s : Block aw) :
    execAt (.drainF gaps) s = performLoop (onlyIn .idle) (fun s => drainFLoop (drainBudget gaps s) gaps s) s := rfl

@[simp] theorem operandByte_eq (imm8 : Byte) : operandByte imm8 = imm8 := rfl

@[simp] theorem textBytes_eq (text : List Byte) : textBytes text = text := by
  unfold textBytes
  rw [show operandByte = id from rfl, List.map_id]

theorem execAt_pushS (text : List Byte) (s : Block aw) :
    execAt (.pushS text) s = perform anyPhase (pushBytes text) s := by
  show perform anyPhase (pushBytes (textBytes text)) s = _
  rw [textBytes_eq]

theorem execAt_pushN (n : Nat) (f : List Int) (s : Block aw) :
    execAt (.pushN n f) s = perform anyPhase (pushBytes (seriesBytes n f)) s := rfl

/-! ### This hardware: the block at `AW = 8` -/

/-- When an operation of the block answers a next state, and which: the block's, with the schedule as it was. -/
theorem onBlock_next_iff {op : Block Config.AW → Host.Outcome (Block Config.AW) Fault Refusal} {s t : State} :
    onBlock op s = .next t ↔ op s.toBlock = .next t.toBlock ∧ t.schedule = s.schedule := by
  unfold onBlock
  split <;> rename_i h <;> simp [h, state_eq_iff, eq_comm]

theorem onBlock_fault_iff {op : Block Config.AW → Host.Outcome (Block Config.AW) Fault Refusal} {s : State} {f : Fault} :
    onBlock op s = .fault f ↔ op s.toBlock = .fault f := by
  unfold onBlock
  split <;> rename_i h <;> simp [h]

theorem onBlock_refused_iff {op : Block Config.AW → Host.Outcome (Block Config.AW) Fault Refusal} {s : State}
    {r : Refusal} : onBlock op s = .refused r ↔ op s.toBlock = .refused r := by
  unfold onBlock
  split <;> rename_i h <;> simp [h]

/-- Every arm of `exec` is the block's operation at `AW = 8`. -/
theorem exec_eq_onBlock (i : Instr) (s : State) : exec i s = onBlock (execAt i) s := by cases i <;> rfl

/-- When an operation answers a next state, and which. -/
theorem exec_next_iff {i : Instr} {s t : State} :
    exec i s = .next t ↔ execAt i s.toBlock = .next t.toBlock ∧ t.schedule = s.schedule := by
  rw [exec_eq_onBlock, onBlock_next_iff]

theorem exec_refused_iff {i : Instr} {s : State} {r : Refusal} :
    exec i s = .refused r ↔ execAt i s.toBlock = .refused r := by
  rw [exec_eq_onBlock, onBlock_refused_iff]

end Sys2Proof.Machine
end

