-- ==== Sys2Proof/Laws/Run.lean ====
section
/-! SUPPORT. Runs of operations one after the other, rows of PUSH, and runs of schedules. -/

namespace Sys2Proof.Machine

variable {aw : Nat}

/-! ### One after the other -/

/-- When two in a row answer a next state. -/
theorem andThen_next_iff {o : Host.Outcome (Block aw) Fault Refusal} {k : Block aw → Host.Outcome (Block aw) Fault Refusal}
    {u : Block aw} : andThen o k = .next u ↔ ∃ t, o = .next t ∧ k t = .next u := by
  cases o <;> simp [andThen]

@[simp] theorem runOpsAt_nil (s : Block aw) : runOpsAt [] s = .next s := rfl

/-- A run answers a next state when its first operation does and the rest does from there. -/
theorem runOpsAt_cons_next_iff {i : Instr} {is : List Instr} {s u : Block aw} :
    runOpsAt (i :: is) s = .next u ↔ ∃ t, execAt i s = .next t ∧ runOpsAt is t = .next u :=
  andThen_next_iff

theorem runOpsAt_cons_of_next {i : Instr} {s t : Block aw} (h : execAt i s = .next t) (is : List Instr) :
    runOpsAt (i :: is) s = runOpsAt is t := by
  rw [runOpsAt, h]; rfl

theorem runOpsAt_append_of_next {is : List Instr} {s t : Block aw} (h : runOpsAt is s = .next t) (js : List Instr) :
    runOpsAt (is ++ js) s = runOpsAt js t := by
  induction is generalizing s with
  | nil => cases h; rfl
  | cons i is ih =>
    obtain ⟨u, hu, hrest⟩ := runOpsAt_cons_next_iff.mp h
    rw [List.cons_append, runOpsAt_cons_of_next hu, ih hrest]

/-- A row of PUSH never stops, and is `pushBytes`. -/
theorem runOpsAt_pushOps (bs : List Byte) {s : Block aw} (hr : s.hadReset = true) :
    runOpsAt (pushOps bs) s = .next (pushBytes bs s) := by
  induction bs generalizing s with
  | nil => rfl
  | cons b bs ih =>
    have h : execAt (.push b) s = .next (pushByte b s) := perform_of_admitted hr rfl
    rw [pushOps, List.map_cons, runOpsAt_cons_of_next h]
    exact ih (by simpa using hr)

/-- What every operation keeps, every run keeps. -/
theorem runOpsAt_keeps {P : Block aw → Prop} (hstep : ∀ i s t, P s → execAt i s = .next t → P t) (is : List Instr)
    {s t : Block aw} (h : P s) (ht : runOpsAt is s = .next t) : P t := by
  induction is generalizing s with
  | nil => cases ht; exact h
  | cons i is ih =>
    obtain ⟨u, hu, hrest⟩ := runOpsAt_cons_next_iff.mp ht
    exact ih (hstep i s u h hu) hrest

/-! ### This hardware: the block at `AW = 8` -/

/-- A run of operations is the block's run. -/
theorem runOps_eq_onBlock (is : List Instr) (s : State) : runOps is s = onBlock (runOpsAt is) s := by
  induction is generalizing s with
  | nil => rfl
  | cons i is ih =>
    rw [runOps, exec_eq_onBlock, onBlock, onBlock, runOpsAt]
    cases h : execAt i s.toBlock <;> simp [andThen, ih, onBlock]

/-- When a run of operations answers a next state, and which. -/
theorem runOps_next_iff {is : List Instr} {s t : State} :
    runOps is s = .next t ↔ runOpsAt is s.toBlock = .next t.toBlock ∧ t.schedule = s.schedule := by
  rw [runOps_eq_onBlock, onBlock_next_iff]

/-! ### Steps (00_scope.md R15) -/

/-- A step is the block's performing of the next token, with the token taken off the schedule. -/
theorem step_of_schedule {s : State} {t : Token} {rest : List Token} (h : s.schedule = t :: rest) :
    step s = onBlock (tokenAt t) { s with schedule := rest } := by
  unfold step fetch
  simp only [h, onBlock, tokenAt]
  cases decode t with
  | ok i => exact exec_eq_onBlock i _
  | error e => rfl

theorem run_succ_of_next {s t : State} (h : step s = .next t) (k : Nat) :
    Sys2Proof.core.run (k + 1) s = Sys2Proof.core.run k t := by
  have h' : Sys2Proof.core.step s = .next t := h
  show Host.Core.run Sys2Proof.core (k + 1) s = _
  simp only [Host.Core.run, h']

theorem run_succ_of_refused {s : State} {r : Refusal} (h : step s = .refused r) (k : Nat) :
    Sys2Proof.core.run (k + 1) s = .refused r := by
  have h' : Sys2Proof.core.step s = .refused r := h
  show Host.Core.run Sys2Proof.core (k + 1) s = _
  simp only [Host.Core.run, h']

theorem run_succ_of_fault {s : State} {f : Fault} (h : step s = .fault f) (k : Nat) :
    Sys2Proof.core.run (k + 1) s = .fault f := by
  have h' : Sys2Proof.core.step s = .fault f := h
  show Host.Core.run Sys2Proof.core (k + 1) s = _
  simp only [Host.Core.run, h']

/-! ### Schedules (00_scope.md R16) -/

theorem runTokensAt_append_of_next {ts : List Token} {s t : Block aw} (h : runTokensAt ts s = .next t) (us : List Token) :
    runTokensAt (ts ++ us) s = runTokensAt us t := by
  induction ts generalizing s with
  | nil => cases h; rfl
  | cons x ts ih =>
    obtain ⟨u, hu, hrest⟩ := andThen_next_iff.mp h
    rw [List.cons_append, runTokensAt, hu]
    exact ih hrest

/-- The first `n + 1` tokens of an infinite schedule are its first `n` and one more. -/
@[simp] theorem Schedule.first_succ (t : Nat → Token) (n : Nat) :
    (Schedule.infinite t).first (n + 1) = (Schedule.infinite t).first n ++ [t n] := by
  simp [Schedule.first, List.range_succ]

/-! ### Deliveries -/

/-- What is delivered depends on the trace alone. -/
theorem delivered_eq (s : Block aw) :
    s.delivered = s.trace.filterMap (fun e => match e with | .deliver b => some b | .overrun => none) := rfl

theorem pushByte_delivered (b : Byte) (s : Block aw) : (pushByte b s).delivered = s.delivered := by
  rw [delivered_eq, delivered_eq, pushByte_trace]
  split <;> simp

@[simp] theorem deliverLatch_delivered (s : Block aw) : (deliverLatch s).delivered = s.delivered ++ [s.rdLatch] := by
  simp [delivered_eq]

end Sys2Proof.Machine
end

