-- ==== Sys2Proof/Tests/Slice0.lean ====
section
/-! SUPPORT. Small tests: expected values from the encodings of 30_encoding.md and the vectors of 95_test_vectors.md, and a
witness for the hypotheses of each statement of Certificates/Slice0/Obligations.lean. -/

namespace Sys2Proof.Tests

open Sys2Proof.Machine

/-- A state after a RESET with the given pointers, flag, phase, latch and slots. -/
def block (head tail : Index Config.AW) (ovf : Bool) (cphase : Phase) (rdLatch : Byte) (mem : Memory) : State :=
  { State.reset with head := head, tail := tail, ovf := ovf, cphase := cphase, rdLatch := rdLatch, mem := mem }

/-! ### Well-formedness -/

theorem test_series_of_wrong_length_is_ill_formed : (Instr.pushN 3 [1, 2]).wellFormed = false := by decide

theorem test_series_of_right_length_is_well_formed : (Instr.pushN 2 [1, 2]).wellFormed = true := by decide

/-! ### Decoding: words written out bit by bit from 30_encoding.md R85 -/

theorem test_decode_nop : decode 0b000000000000 = .ok .nop := by decide
theorem test_decode_push : decode 0b000101000001 = .ok (.push 0x41) := by decide
theorem test_decode_push_top : decode 0b000111111111 = .ok (.push 0xFF) := by decide
theorem test_decode_popS : decode 0b001000000000 = .ok .popS := by decide
theorem test_decode_popR : decode 0b001100000000 = .ok .popR := by decide
theorem test_decode_popA : decode 0b010000000000 = .ok .popA := by decide
theorem test_decode_pop : decode 0b010100000000 = .ok .pop := by decide
theorem test_decode_reset : decode 0b111100000000 = .ok .reset := by decide

/-- V18a. -/
theorem test_decode_reserved_op : [0x600, 0x7C0, 0xE00].map decode =
    [.error (.reservedOp 0x600), .error (.reservedOp 0x7C0), .error (.reservedOp 0xE00)] := by decide

/-- V18b. -/
theorem test_decode_reserved_imm8 : [0x001, 0x2FF, 0x301, 0x4AA, 0x501, 0xF01].map (fun t => (decode t).isOk) =
    [false, false, false, false, false, false] := by decide

theorem test_decodeTableWord : (decodeTableWord 16 0x141, decodeTableWord 16 0xF00, decodeTableWord 16 0x1100) =
    (some (.push 0x41), some .reset, none) := by decide

/-- The expansions have no token of their own (R93 to R96). -/
theorem test_encode_pseudo : [Instr.drain [], .drainF [], .pushS [], .pushN 0 []].map encode =
    [none, none, none, none] := by decide

/-! ### Operations: vectors of 95_test_vectors.md -/

/-- V17. -/
theorem test_nop_vector : (nextState? (exec .nop (block 7 2 true .read 0x44 [(2, 0x10)]))) =
    some (block 7 2 true .read 0x44 [(2, 0x10)]) := by decide

/-- V2: `head` wraps 255 to 0. -/
theorem test_push_wraps : (nextState? (exec (.push 0xC3) (block 255 7 false .idle 0 []))).map
    (fun t => (t.head, t.mem, t.count, t.trace)) = some (0, [(255, 0xC3)], 249, []) := by decide

/-- V4: the overrun at the wrap point. -/
theorem test_push_overruns : (nextState? (exec (.push 0x22) (block 255 0 false .idle 0 []))).map
    (fun t => (t.ovf, t.mem, t.isEmpty, t.trace)) = some (true, [(255, 0x22)], true, [.overrun]) := by decide

/-- V9. -/
theorem test_popS_empty : nextState? (exec .popS (block 6 6 false .idle 0 [])) = some (block 6 6 false .idle 0 []) := by
  decide

/-- Example of R130. -/
theorem test_popS_nonempty : nextState? (exec .popS (block 4 1 false .idle 0 [])) =
    some (block 4 1 false .sampled 0 []) := by decide

/-- V10. -/
theorem test_popR_latches : (nextState? (exec .popR (block 7 6 false .sampled 0 [(6, 0x5C)]))).map
    (fun t => (t.rdLatch, t.cphase, t.tail)) = some (0x5C, .read, 6) := by decide

/-- V14. -/
theorem test_popR_in_idle_is_refused : refusal? (exec .popR (block 7 6 false .idle 0 [])) = some .consumerPhase := by
  decide

/-- V11: `tail` wraps 255 to 0. -/
theorem test_popA_wraps : (nextState? (exec .popA (block 3 255 false .read 0x9D []))).map
    (fun t => (t.tail, t.cphase, t.trace)) = some (0, .idle, [.deliver 0x9D]) := by decide

/-- V14. -/
theorem test_popA_in_sampled_is_refused : refusal? (exec .popA (block 7 6 false .sampled 0 [])) = some .consumerPhase := by
  decide

/-- V12. -/
theorem test_pop_delivers : (nextState? (exec .pop (block 7 6 false .idle 0 [(6, 0x5C)]))).map
    (fun t => (t.tail, t.rdLatch, t.cphase, t.trace)) = some (7, 0x5C, .idle, [.deliver 0x5C]) := by decide

/-- V13: reading from a full buffer. -/
theorem test_pop_from_full : (nextState? (exec .pop (block 255 0 false .idle 0 [(0, 0x10)]))).map
    (fun t => (t.tail, t.count, t.isFull)) = some (1, 254, false) := by decide

/-- V18. -/
theorem test_reset_vector : (nextState? (exec .reset (block 7 2 true .read 0x44 []))).map
    (fun t => (t.head, t.tail, t.ovf, t.cphase, t.trace)) = some (0, 0, false, .idle, []) := by decide

/-- V15. -/
theorem test_drain_delivers_all : (nextState? (exec (.drain []) (block 3 1 false .idle 0 [(1, 0x0A), (2, 0x0B)]))).map
    (fun t => (t.head, t.tail, t.cphase, t.trace)) = some (3, 3, .idle, [.deliver 0x0A, .deliver 0x0B]) := by decide

/-- V16: a byte pushed after the first POP.A is delivered by the same DRAIN. -/
theorem test_drain_with_push : (nextState? (exec (.drain [[], [], [0x0C]])
    (block 3 1 false .idle 0 [(1, 0x0A), (2, 0x0B)]))).map (fun t => (t.head, t.tail, t.trace)) =
    some (4, 4, [.deliver 0x0A, .deliver 0x0B, .deliver 0x0C]) := by decide

/-- The start of V15 with DRAIN.F. -/
theorem test_drainF_delivers_all : (nextState? (exec (.drainF []) (block 3 1 false .idle 0 [(1, 0x0A), (2, 0x0B)]))).map
    (fun t => (t.head, t.tail, t.rdLatch, t.trace)) = some (3, 3, 0x0B, [.deliver 0x0A, .deliver 0x0B]) := by decide

/-- The example of R95: `0x130 0x161 0x10D`. -/
theorem test_pushS_text : (nextState? (exec (.pushS [0x30, 0x61, 0x0D]) State.reset)).map (fun t => (t.head, t.mem)) =
    some (3, [(0, 0x30), (1, 0x61), (2, 0x0D)]) := by decide

/-- `f(i) & 0xFF` (R96). -/
theorem test_pushN_reduces : (nextState? (exec (.pushN 3 [256, 255, -1]) State.reset)).map (fun t => (t.head, t.mem)) =
    some (3, [(0, 0x00), (1, 0xFF), (2, 0xFF)]) := by decide

/-! ### The assembler (30_encoding.md R92, R96) -/

theorem test_assemble_series : assembleLine
    ['P', 'U', 'S', 'H', '.', 'N', ' ', '3', ',', ' ', '2', '5', '0', ' ', '+', ' ', 'i', ' ', 'm', 'o', 'd', ' ', '2'] =
    .ok (some (.pushN 3 [250, 251, 250])) := by decide

theorem test_assemble_lines : assemble [[';', 'x'], [' '], ['P', 'O', 'P', '.', 'S', ' ', ';'], ['D', 'R', 'A', 'I', 'N']] =
    .ok [.popS, .drain []] := by decide

theorem test_assemble_rejects : [['P', 'U', 'S', 'H', ' ', '2', '5', '6'], ['P', 'O', 'P', ' ', '1'], ['p', 'o', 'p']].map
    assembleLine = [.error .badOperand, .error .trailingText, .error .unknownMnemonic] := by decide

/-- A semicolon in quotes is the character `0x3B` (entry 10); after the operand it starts a comment (R92). -/
theorem test_quoted_semicolon : [['P', 'U', 'S', 'H', ' ', '\'', ';', '\'', ';', 'x'],
    ['P', 'U', 'S', 'H', '.', 'S', ' ', quoteChar, ';', quoteChar]].map assembleLine =
    [.ok (some (.push 0x3B)), .ok (some (.pushS [0x3B]))] := by decide

/-! ### Ports (30_encoding.md R81) and derived values (V19) -/

theorem test_port_operations : [PortAction.assertWrite 0x41, .lookAtEmpty, .captureData, .assertRead, .readAtOnce,
    .assertReset, .quiet].map portOperation = [.push 0x41, .popS, .popR, .popA, .pop, .reset, .nop] := by decide

theorem test_derived_values : [((0 : Index 8), (0 : Index 8)), (255, 0), (4, 5), (0, 255), (10, 250), (254, 0)].map
    (fun p => (emptyAt p.1 p.2, fullAt p.1 p.2, (countAt p.1 p.2).toNat, (freeAt p.1 p.2).toNat)) =
    [(true, false, 0, 255), (false, true, 255, 0), (false, true, 255, 0), (false, false, 1, 254),
      (false, false, 16, 239), (false, false, 254, 1)] := by decide

/-! ### Capabilities (60_exceptions.md R188) -/

/-- "may perform": rows producer, consumer, host; the last two operations have a PUSH in a gap (entry 16). -/
theorem test_may_perform : [Agent.producer, .consumer, .host].map (fun a =>
    [Instr.nop, .push 0x41, .pushS [0x41], .popS, .popR, .popA, .pop, .drain [[]], .drainF [], .reset, .drain [[], [0x41]],
      .drainF [[0x41]]].map (mayPerform a)) =
    [[true, true, true, false, false, false, false, false, false, false, false, false],
      [true, false, false, true, true, true, true, true, true, false, false, false],
      [true, false, false, false, false, false, false, false, false, true, false, false]] := by decide

/-- "may read" and "may write", in the order of the columns' names. -/
theorem test_may_read_and_write : [Agent.producer, .consumer, .host].map (fun a =>
    ([Readable.head, .tail, .slotAtTail, .wrFull, .wrOverrun, .rdEmpty, .rdData, .count, .ovf].map (mayRead a),
      [Piece.slots, .head, .tail, .ovf, .cphase, .rdLatch].map (mayWrite a))) =
    [([true, true, false, true, false, false, false, false, false], [true, true, false, true, false, false]),
      ([true, true, true, true, true, true, true, true, true], [false, false, true, false, true, true]),
      ([false, false, false, true, true, true, true, true, true], [true, true, true, true, true, true])] := by decide

/-! ### Other index widths (00_scope.md R6) and infinite schedules (R16) -/

/-- With `AW = 2`, MASK is 3: COUNT 3 is FULL, and the PUSH that finds it makes `head == tail`. -/
theorem test_push_at_width_two : ((nextState? (runTokensAt [0xF00, 0x111, 0x112, 0x113] (Block.reset 2))).map
      (fun t => (t.isFull, t.count, t.ovf)),
    (nextState? (runTokensAt [0xF00, 0x111, 0x112, 0x113, 0x114] (Block.reset 2))).map
      (fun t => (t.isEmpty, t.head, t.ovf, t.trace))) =
    (some (true, 3, false), some (true, 0, true, [.overrun])) := by decide

/-- With `AW = 1` one byte fills the buffer; the endless PUSH, POP is run for 6 tokens. -/
theorem test_infinite_schedule_at_width_one :
    ((nextState? ((Schedule.infinite (fun n => if n % 2 = 0 then 0x15C else 0x500)).runFirst 6 (Block.reset 1))).map
      (fun t => (t.head, t.tail, t.ovf, t.delivered))) = some (1, 1, false, [0x5C, 0x5C, 0x5C]) := by decide

/-! ### The first step after reset -/

theorem test_first_step_pushes : (nextState? (step (State.reset.withFetchWord 16 0x15A))).map
    (fun t => (t.head, t.mem, t.schedule)) = some (1, [(0, 0x5A)], []) := by decide

theorem test_reserved_first_step : refusal? (step (State.reset.withFetchWord 16 0x600)) = some (.reservedToken 0x600) := by
  decide

/-! ### Witnesses: states that meet the hypotheses of the statements -/

theorem witness_next_token : ({ State.reset with schedule := [0x15A] } : State).schedule = 0x15A :: [] ∧
    decode 0x15A = .ok (.push 0x5A) := by decide

theorem witness_schedule_end : State.reset.schedule = [] ∧ State.reset.hadReset = true := by decide

theorem witness_reserved_token :
    ({ State.reset with schedule := [0x600] } : State).schedule = 0x600 :: [] ∧
    [(0x600 : Token), 0xEFF, 0x001, 0x2FF, 0xF01].map (fun t => (t.toNat / 256, t.toNat % 256)) =
      [(6, 0), (14, 255), (0, 1), (2, 255), (15, 1)] := by decide

theorem witness_stored_token : decode 0x141 = .ok (.push 0x41) ∧ 16 ≤ (0x10 : Byte).toNat := by decide

theorem witness_schedule_of_operations : ([0xF00, 0x141, 0x500] : List Token).map decode =
    [Instr.reset, .push 0x41, .pop].map .ok := by decide

theorem witness_before_reset : ({ State.reset with hadReset := false } : State).hadReset = false := by decide

theorem witness_after_reset_in_every_phase : ∀ p ∈ [Phase.idle, .sampled, .read],
    (block 7 6 false p 0 []).hadReset = true ∧ (block 7 6 false p 0 []).cphase = p := by decide

theorem witness_idle_empty : (block 6 6 false .idle 0 []).hadReset = true ∧ (block 6 6 false .idle 0 []).cphase = .idle ∧
    (block 6 6 false .idle 0 []).head = (block 6 6 false .idle 0 []).tail := by decide

theorem witness_idle_nonempty : (block 255 0 false .idle 0 []).hadReset = true ∧
    (block 255 0 false .idle 0 []).cphase = .idle ∧ (block 255 0 false .idle 0 []).head ≠ (block 255 0 false .idle 0 []).tail := by
  decide

theorem witness_count_mask : (block 255 0 false .idle 0 []).hadReset = true ∧
    (block 255 0 false .idle 0 []).count.toNat = 255 ∧ (block 255 0 false .idle 0 []).isFull = true ∧
    (block 255 0 false .idle 0 []).cphase = .idle := by decide

theorem witness_reset_state : exec .reset State.reset = .next { State.reset with toBlock := resetBlock State.reset.toBlock } := rfl

theorem witness_series : (Instr.pushN 2 [1, 2]).wellFormed = true ∧ State.reset.hadReset = true := by decide

theorem witness_sampled_slot_written : memRead (block 7 6 false .sampled 0 [(6, 0x5C)]).mem
    (block 7 6 false .sampled 0 [(6, 0x5C)]).tail.toNat = some 0x5C := by decide

theorem witness_gaps : ∀ g ∈ ([[], []] : List (List Byte)), g = [] := by decide

theorem witness_core_operation : (Instr.push 0x41).isCore = true ∧ Instr.push 0x41 ≠ .reset ∧
    (nextState? (exec (.push 0x41) State.reset)).isSome = true := by decide

/-- One core operation with a next state for each clause of the outputs' statement, and one for each agent. -/
theorem witness_outputs_and_agents : (nextState? (exec .reset State.reset)).isSome = true ∧
    (nextState? (exec (.push 0x41) (block 255 0 false .idle 0 []))).isSome = true ∧
    (block 255 0 false .idle 0 []).isFull = true ∧ State.reset.isFull = false ∧ Instr.popS.isCore = true ∧
    (nextState? (exec .popS State.reset)).isSome = true ∧
    [(Instr.push 0x41).agent, Instr.popS.agent, Instr.reset.agent] = [.producer, .consumer, .host] := by decide

theorem witness_width : 1 ≤ 1 ∧ emptyAt (1 : BitVec 1) 1 = true ∧ fullAt (0 : BitVec 1) 1 = true := by decide

theorem witness_none_finds_full : noneFindsFull [0x01] (block 254 0 false .sampled 0 []).toBlock = true ∧
    (block 254 0 false .sampled 0 []).head ≠ (block 254 0 false .sampled 0 []).tail := by decide

theorem witness_none_finds_full_idle : noneFindsFull ([0x01] ++ [0x02]) (block 253 0 false .idle 0 []).toBlock = true ∧
    (block 253 0 false .idle 0 []).cphase = .idle ∧
    (block 253 0 false .idle 0 []).head ≠ (block 253 0 false .idle 0 []).tail := by decide

/-- Case A (nothing pushed later), case B (`before` not empty) and case C (`after` not empty), in SAMPLED and in READ. -/
theorem witness_lap : ∀ p ∈ [Phase.sampled, .read], (block 255 0 false p 0 []).hadReset = true ∧
    (block 255 0 false p 0 []).isFull = true ∧ (block 255 0 false p 0 []).cphase = p ∧
    ([] : List Byte).length + ([] : List Byte).length ≤ 255 ∧ ([0xE2] : List Byte).length + ([0xE3] : List Byte).length ≤ 255 ∧
    [([] : List Byte) ++ [], [0xE2] ++ [], [] ++ [0xE3]].map List.isEmpty = [true, false, false] := by
  decide

theorem witness_longest_later : (List.replicate 255 (0xE2 : Byte)).length + ([] : List Byte).length ≤ 255 := by
  rw [List.length_replicate]; decide

theorem witness_run_from_reset : (nextState? (runOps [.reset, .push 0x41] State.reset)).isSome = true ∧
    ∀ i ∈ [Instr.push 0x41], i.isCore = true := by decide

/-- A block of another width with a byte to read, and one with none. -/
theorem witness_every_width : 1 ≤ 3 ∧ ({ Block.reset 3 with head := 1 } : Block 3).hadReset = true ∧
    ({ Block.reset 3 with head := 1 } : Block 3).cphase = .idle ∧
    ({ Block.reset 3 with head := 1 } : Block 3).head ≠ ({ Block.reset 3 with head := 1 } : Block 3).tail := by decide

/-- A schedule that is refused at its second token, and an infinite one refused at its first. -/
theorem witness_inadmissible : ¬ (Schedule.finite [0x141, 0x600]).Admissible (Block.reset 8) ∧
    ¬ (Schedule.infinite (fun _ => 0x300)).Admissible (Block.reset 1) := by
  refine ⟨fun h => ?_, fun h => ?_⟩
  · obtain ⟨t, ht⟩ := h 2
    cases ht
  · obtain ⟨t, ht⟩ := h 1
    cases ht

/-- Two blocks that read the same to the producer and not to the consumer, and two that read the same to both. -/
theorem witness_same_view : sameView .producer (Block.reset 8) { Block.reset 8 with ovf := true } ∧
    sameView .consumer (Block.reset 8) { Block.reset 8 with mem := [(9, 0x41)] } ∧
    ({ Block.reset 8 with ovf := true } : Block 8).hadReset = true := by
  refine ⟨?_, ?_, rfl⟩ <;> intro r hr <;> cases r <;> first | rfl | exact absurd hr (by decide)

/-- Agents and operations they may perform, with a next state. -/
theorem witness_capabilities : [mayPerform .producer (.push 0x41), mayPerform .consumer (.drain []), mayPerform .host .reset,
      mayPerform .host .nop] = [true, true, true, true] ∧
    [exec (.push 0x41) State.reset, exec (.drain []) State.reset, exec .reset State.reset, exec .nop State.reset].map
      (fun o => (nextState? o).isSome) = [true, true, true, true] ∧
    mayWrite .producer .tail = false ∧ mayWrite .consumer .head = false := by decide

/-- The states after `PUSH 0x5C` and the POP.S after it. -/
def onePushed (p : Phase) : State := block 1 0 false p 0 [(0, 0x5C)]

theorem witness_inv (p : Phase) : BlockInv (onePushed p).toBlock where
  memory := rfl
  flag := by simp [onePushed, block, State.reset]
  pending := fun _ _ => by simp [onePushed, block]
  unreadWritten := by
    intro j hj
    have hj0 : j.toNat = 0 := by
      have hc : (onePushed p).count.toNat = 1 := by clear hj; cases p <;> decide
      have ht : (onePushed p).tail = 0 := rfl
      rw [hc, ht] at hj
      simp at hj
      omega
    rw [hj0]; rfl
  lapWritten := by simp [onePushed, block]

theorem witness_inv_step : BlockInv (onePushed .idle).toBlock ∧ (nextState? (step (onePushed .idle))).isSome = true :=
  ⟨witness_inv .idle, by decide⟩

theorem witness_reads_written : BlockInv (onePushed .sampled).toBlock ∧ (onePushed .sampled).cphase = .sampled ∧
    BlockInv (onePushed .idle).toBlock ∧ (onePushed .idle).cphase = .idle ∧ (onePushed .idle).head ≠ (onePushed .idle).tail :=
  ⟨witness_inv _, by decide, witness_inv _, by decide, by decide⟩

theorem witness_fifo (p : Phase) (hp : p ≠ .read) : FifoInv [0x5C] (onePushed p).toBlock where
  head := rfl
  tail := rfl
  behind := Nat.zero_le _
  reading := fun _ => Nat.zero_lt_one
  slots := by
    intro n hn _
    have hn0 : n = 0 := by simpa using hn
    subst hn0; rfl
  order := ⟨[], rfl, List.Pairwise.nil, by simp, by simp, by simp, fun h => absurd h hp⟩
  noLoss := fun _ => ⟨show 1 ≤ 0 + 255 by decide, rfl⟩

theorem witness_fifo_reads : FifoInv [0x5C] (onePushed .idle).toBlock ∧ FifoInv [0x5C] (onePushed .sampled).toBlock ∧
    (nextState? (exec .pop (onePushed .idle))).isSome = true ∧ (onePushed .idle).head ≠ (onePushed .idle).tail ∧
    (nextState? (exec .popR (onePushed .sampled))).isSome = true ∧ (onePushed .idle).ovf = false :=
  ⟨witness_fifo _ (by decide), witness_fifo _ (by decide), by decide, by decide, by decide, by decide⟩

/-- The state after `PUSH 0x5C` and a POP: everything pushed is delivered, the buffer is empty. -/
def oneDelivered : State := { block 1 1 false .idle 0x5C [(0, 0x5C)] with trace := [.deliver 0x5C] }

theorem witness_fifo_empty : FifoInv [0x5C] oneDelivered.toBlock ∧ oneDelivered.ovf = false ∧ oneDelivered.head = oneDelivered.tail where
  left :=
    { head := rfl
      tail := rfl
      behind := by decide
      reading := fun h => absurd rfl h
      slots := by
        intro n hn _
        have hn0 : n = 0 := by simpa using hn
        subst hn0; rfl
      order := ⟨[0], rfl, by simp, by simp, fun _ h => absurd rfl h, (fun h => nomatch h), (fun h => nomatch h)⟩
      noLoss := fun _ => by decide }
  right := by decide

end Sys2Proof.Tests
end

section
/-! SUPPORT. What each operation answers at every index width, as one equation or one record, and the statements that follow
from these alone. -/

namespace Sys2Proof.Machine

variable {aw : Nat}

/-! ### No operation faults (60_exceptions.md R182) -/

theorem performLoop_no_fault {admits : Phase → Bool} {effect : Block aw → Option (Block aw)} {s : Block aw} {f : Fault}
    (h : (effect s).isSome = true) : performLoop admits effect s ≠ .fault f := by
  obtain ⟨t, ht⟩ := Option.isSome_iff_exists.mp h
  unfold performLoop
  split
  · split <;> simp [ht]
  · simp

/-- Only DRAIN and DRAIN.F could fault, and their budget suffices. -/
theorem execAt_no_fault (i : Instr) (s : Block aw) (f : Fault) : execAt i s ≠ .fault f := by
  cases i with
  | reset => simp [execAt_reset]
  | drain gaps => exact performLoop_no_fault (drainBudget_suffices gaps s)
  | drainF gaps => exact performLoop_no_fault (drainFBudget_suffices gaps s)
  | nop | push | popS | popR | popA | pop | pushS | pushN => exact perform_no_fault

/-! ### One token -/

theorem tokenAt_of_decode {t : Token} {i : Instr} (h : decode t = .ok i) (s : Block aw) : tokenAt t s = execAt i s := by
  simp [tokenAt, h]

theorem tokenAt_of_reserved {t : Token} {e : DecodeError} (h : decode t = .error e) (s : Block aw) :
    tokenAt t s = .refused (.reservedToken t) := by
  simp [tokenAt, h]

theorem tokenAt_no_fault (t : Token) (s : Block aw) (f : Fault) : tokenAt t s ≠ .fault f := by
  cases h : decode t with
  | ok i => rw [tokenAt_of_decode h]; exact execAt_no_fault i s f
  | error e => simp [tokenAt_of_reserved h]

/-- A token that has no next state is refused. -/
theorem tokenAt_refused_of_no_next {t : Token} {s : Block aw} (h : ∀ u, tokenAt t s ≠ .next u) :
    ∃ r, tokenAt t s = .refused r := by
  cases ho : tokenAt t s with
  | next u => exact absurd ho (h u)
  | fault f => exact absurd ho (tokenAt_no_fault t s f)
  | refused r => exact ⟨r, rfl⟩

/-- Settles O1: the step is the block's performing of the token, and the token's operation is `i`. -/
theorem stepPerformsTheNextToken : Obligations.StepPerformsTheNextToken := by
  intro s t rest i hs hi
  rw [step_of_schedule hs, exec_eq_onBlock, funext (tokenAt_of_decode hi)]

/-! ### PUSH -/

theorem execAt_push_of_reset (b : Byte) {s : Block aw} (hr : s.hadReset = true) :
    execAt (.push b) s = .next (pushByte b s) :=
  perform_of_admitted hr rfl

/-- FULL as the comparison of naturals that the statements write. -/
theorem isFull_eq_decide (s : Block aw) : s.isFull = decide ((s.head.toNat + 1) % 2 ^ aw = s.tail.toNat) := by
  rw [Bool.eq_iff_iff, decide_eq_true_iff]
  exact isFull_iff_toNat s

/-- Settles O20: the fields of `pushByte`, with FULL and the advanced head as naturals. -/
theorem pushAtEveryWidth : Obligations.PushAtEveryWidth := by
  intro aw b s _ hr
  refine ⟨pushByte b s, execAt_push_of_reset b hr, fun a => ?_, ?_, ?_, ?_, by simp⟩
  · rw [pushByte_mem, memRead_memWrite]
  · rw [pushByte_head, ← advance_eq, advance_toNat]
  · rw [pushByte_ovf, isFull_eq_decide]
  · simp only [pushByte_trace, isFull_eq_decide, decide_eq_true_eq]
    split <;> simp

/-! ### The consumer's steps -/

theorem execAt_popS_of_idle {s : Block aw} (hr : s.hadReset = true) (hp : s.cphase = .idle) :
    execAt .popS s = .next (samplePointers s) :=
  perform_of_admitted hr ((onlyIn_iff _ _).mpr hp)

theorem execAt_popR_of_sampled {s : Block aw} (hr : s.hadReset = true) (hp : s.cphase = .sampled) :
    execAt .popR s = .next (latchSlot s) :=
  perform_of_admitted hr ((onlyIn_iff _ _).mpr hp)

theorem execAt_popA_of_read {s : Block aw} (hr : s.hadReset = true) (hp : s.cphase = .read) :
    execAt .popA s = .next (deliverLatch s) :=
  perform_of_admitted hr ((onlyIn_iff _ _).mpr hp)

theorem execAt_pop_of_idle {s : Block aw} (hr : s.hadReset = true) (hp : s.cphase = .idle) :
    execAt .pop s = .next (popByte s) :=
  perform_of_admitted hr ((onlyIn_iff _ _).mpr hp)

/-- The phase POP.S writes, by the comparison of the pointers themselves. -/
theorem samplePointers_eq_compare (s : Block aw) :
    samplePointers s = { s with cphase := if s.head ≠ s.tail then .sampled else .idle } := by
  by_cases h : s.head = s.tail
  · rw [samplePointers_of_empty h, if_neg (not_not_intro h)]
  · rw [samplePointers_of_nonempty h, if_pos h]

/-- A fused read that finds a byte is the three steps of the split one (41_consumer.md R133). -/
theorem popByte_eq_split {s : Block aw} (h : s.head ≠ s.tail) :
    popByte s = deliverLatch (latchSlot (samplePointers s)) := by
  rw [popByte_of_nonempty h, samplePointers_of_nonempty h]
  rfl

theorem popByte_eq_samplePointers {s : Block aw} (h : s.head = s.tail) : popByte s = samplePointers s := by
  rw [popByte_of_empty h, samplePointers_of_empty h]

/-- POP.S, POP.R, POP.A in a row, from a state with a byte to read. -/
theorem runOpsAt_split_read {s : Block aw} (hr : s.hadReset = true) (hp : s.cphase = .idle) (h : s.head ≠ s.tail) :
    runOpsAt [.popS, .popR, .popA] s = .next (deliverLatch (latchSlot (samplePointers s))) := by
  have hsampled : (samplePointers s).cphase = .sampled := by rw [samplePointers_of_nonempty h]
  have hlatch := execAt_popR_of_sampled (s := samplePointers s) hr hsampled
  have hdeliver := execAt_popA_of_read (s := latchSlot (samplePointers s)) hr rfl
  rw [runOpsAt_cons_of_next (execAt_popS_of_idle hr hp), runOpsAt_cons_of_next hlatch, runOpsAt_cons_of_next hdeliver,
    runOpsAt_nil]

/-- Settles O31: each step as its record; POP by cases on the comparison of the pointers. -/
theorem consumerStepsAtEveryWidth : Obligations.ConsumerStepsAtEveryWidth := by
  intro aw s _ hr
  refine ⟨fun hp => ?_, fun hp => ?_, fun hp => ?_, fun hp => ?_⟩
  · rw [execAt_popS_of_idle hr hp, samplePointers_eq_compare]
  · rw [execAt_popR_of_sampled hr hp, latchSlot_eq]
  · exact ⟨deliverLatch s, advance_toNat s.tail, execAt_popA_of_read hr hp⟩
  · rw [execAt_pop_of_idle hr hp]
    by_cases h : s.head = s.tail
    · rw [if_neg (not_not_intro h), runOpsAt_cons_of_next (execAt_popS_of_idle hr hp), runOpsAt_nil,
        popByte_eq_samplePointers h]
    · rw [if_pos h, runOpsAt_split_read hr hp h, popByte_eq_split h]

end Sys2Proof.Machine
end

section
/-! SUPPORT. Runs of schedules: steps over the tokens, the block's run of the tokens, and the run of their operations
(00_scope.md R15, R16). -/

namespace Sys2Proof.Machine

variable {aw : Nat}

/-! ### A finite schedule -/

/-- At every width: tokens that all decode run as their operations. -/
theorem runTokensAt_eq_runOpsAt {ts : List Token} {is : List Instr} (h : ts.map decode = is.map .ok) (s : Block aw) :
    runTokensAt ts s = runOpsAt is s := by
  induction ts generalizing is s with
  | nil => rw [List.map_eq_nil_iff.mp h.symm]; rfl
  | cons t ts ih =>
    cases is with
    | nil => cases h
    | cons i is =>
      obtain ⟨hi, hrest⟩ := List.cons.inj h
      rw [runTokensAt, runOpsAt, tokenAt_of_decode hi, funext (ih hrest)]

/-- The steps over the tokens put before a schedule are the block's run of them, and leave that schedule. -/
theorem runTokens_eq_onBlock (ts : List Token) (s : State) : runTokens ts s = onBlock (runTokensAt ts) s := by
  induction ts generalizing s with
  | nil => rfl
  | cons t ts ih =>
    have hstep : step { s with schedule := t :: ts ++ s.schedule } =
        onBlock (tokenAt t) { s with schedule := ts ++ s.schedule } := step_of_schedule rfl
    rw [runTokens, List.length_cons]
    cases ht : tokenAt t s.toBlock with
    | next b =>
      rw [run_succ_of_next (hstep.trans (by rw [onBlock, ht]))]
      exact (ih { s with toBlock := b }).trans (by simp only [onBlock, runTokensAt, ht, andThen])
    | fault f => exact absurd ht (tokenAt_no_fault t _ f)
    | refused r =>
      rw [run_succ_of_refused (hstep.trans (onBlock_refused_iff.mpr ht))]
      exact (onBlock_refused_iff.mpr (by rw [runTokensAt, ht]; rfl)).symm

/-- Settles O8: steps are the block's run of the tokens, and that is the run of their operations. -/
theorem scheduleRunsItsOperations : Obligations.ScheduleRunsItsOperations := by
  refine ⟨fun ts is s h => ?_, runTokens_eq_onBlock⟩
  rw [runTokens_eq_onBlock, runOps_eq_onBlock, funext (runTokensAt_eq_runOpsAt h)]

/-! ### The first token that is refused -/

theorem runTokensAt_append_of_refused {ts : List Token} {s : Block aw} {r : Refusal} (h : runTokensAt ts s = .refused r)
    (us : List Token) : runTokensAt (ts ++ us) s = .refused r := by
  induction ts generalizing s with
  | nil => cases h
  | cons t ts ih =>
    rw [List.cons_append, runTokensAt]
    rw [runTokensAt] at h
    cases ht : tokenAt t s with
    | next u => rw [ht] at h; exact ih h
    | fault f => exact absurd ht (tokenAt_no_fault t s f)
    | refused r' => rw [ht] at h; exact h

/-- A run that reaches `t` and goes on with one more token is that token's outcome in `t`. -/
theorem runTokensAt_concat_of_next {ts : List Token} {s t : Block aw} (h : runTokensAt ts s = .next t) (tok : Token) :
    runTokensAt (ts ++ [tok]) s = tokenAt tok t := by
  rw [runTokensAt_append_of_next h, runTokensAt]
  cases tokenAt tok t <;> rfl

/-- A longer first piece of a schedule begins with the shorter. -/
theorem Schedule.first_prefix (sch : Schedule) {n m : Nat} (h : n ≤ m) : sch.first n <+: sch.first m := by
  cases sch with
  | finite ts => exact List.take_prefix_take_left h
  | infinite t =>
    obtain ⟨k, rfl⟩ := Nat.exists_eq_add_of_le h
    rw [Schedule.first, Schedule.first, List.range_add, List.map_append]
    exact List.prefix_append _ _

/-- The next piece of a schedule has one token more, or the schedule has ended. -/
theorem Schedule.first_succ_cases (sch : Schedule) (n : Nat) :
    sch.first (n + 1) = sch.first n ∨ ∃ tok, sch.first (n + 1) = sch.first n ++ [tok] := by
  cases sch with
  | finite ts =>
    simp only [Schedule.first, List.take_add_one]
    cases ts[n]? with
    | none => exact .inl (List.append_nil _)
    | some tok => exact .inr ⟨tok, rfl⟩
  | infinite t => exact .inr ⟨t n, Schedule.first_succ t n⟩

/-- A schedule that is not admissible has a longest piece that runs: the first piece is empty, and the shortest one that does
not run is one longer. -/
theorem Schedule.exists_last_running_piece {sch : Schedule} {s : Block aw} (h : ¬ sch.Admissible s) :
    ∃ n t, sch.runFirst n s = .next t ∧ ∀ u, sch.runFirst (n + 1) s ≠ .next u := by
  by_contra hall
  push Not at hall
  refine h (fun n => ?_)
  induction n with
  | zero => exact ⟨s, by cases sch <;> rfl⟩
  | succ n ih =>
    obtain ⟨t, ht⟩ := ih
    exact hall n t ht

/-- Settles O9: the token after the longest piece that runs is refused, and every longer piece begins with these tokens. -/
theorem inadmissibleScheduleStopsAtAFirstToken : Obligations.InadmissibleScheduleStopsAtAFirstToken := by
  intro aw sch s h
  obtain ⟨n, t, ht, hstop⟩ := Schedule.exists_last_running_piece h
  obtain hend | ⟨tok, htok⟩ := sch.first_succ_cases n
  · refine absurd ht (?_ : runTokensAt (sch.first n) s ≠ .next t)
    rw [← hend]
    exact hstop t
  · have hlast : sch.runFirst (n + 1) s = tokenAt tok t := by
      rw [Schedule.runFirst, htok]; exact runTokensAt_concat_of_next ht tok
    obtain ⟨r, hr⟩ := tokenAt_refused_of_no_next (fun u hu => hstop u (hlast.trans hu))
    refine ⟨n, t, tok, r, ht, htok, hr, fun m hm => ?_⟩
    obtain ⟨us, hus⟩ := sch.first_prefix hm
    rw [Schedule.runFirst, ← hus]
    exact runTokensAt_append_of_refused (hlast.trans hr) us

end Sys2Proof.Machine
end

section
/-! SUPPORT. `BlockInv` holds after a RESET and each step keeps it, at every index width. -/

namespace Sys2Proof.Machine

variable {aw : Nat}

/-! ### Distances from `tail`

`(j - s.tail).toNat` is how far slot `j` stands past `tail`; COUNT is that distance of `head`. -/

theorem index_succ_toNat_le (x : Index aw) : (x + 1).toNat ≤ x.toNat + 1 := by
  rw [← advance_eq, advance_toNat]
  exact Nat.mod_le _ _

/-- The step to the next index wraps from the last one alone. -/
theorem index_succ_toNat_of_lt {x : Index aw} (h : x.toNat + 1 < Config.depthOf aw) : (x + 1).toNat = x.toNat + 1 := by
  rw [← advance_eq, advance_toNat, Nat.mod_eq_of_lt h]

theorem index_succ_eq_zero_of_last {x : Index aw} (h : x.toNat + 1 = Config.depthOf aw) : x + 1 = 0 := by
  rw [index_eq_iff, ← advance_eq, advance_toNat, h, Nat.mod_self]
  rfl

theorem index_succ_toNat {x : Index aw} (h : x + 1 ≠ 0) : (x + 1).toNat = x.toNat + 1 :=
  index_succ_toNat_of_lt (lt_of_le_of_ne (index_lt x) (fun hlast => h (index_succ_eq_zero_of_last hlast)))

/-- The index that wraps is above every other. -/
theorem index_lt_of_succ_eq_zero {x y : Index aw} (hx : x + 1 = 0) (hne : y ≠ x) : y.toNat < x.toNat := by
  have hlast : Config.depthOf aw ≤ x.toNat + 1 := by
    by_contra hlt
    have hsucc := index_succ_toNat_of_lt (not_le.mp hlt)
    rw [hx] at hsucc
    exact absurd hsucc (Nat.succ_ne_zero _).symm
  have hle : y.toNat ≤ x.toNat := Nat.le_of_lt_succ ((index_lt y).trans_le hlast)
  exact lt_of_le_of_ne hle (fun h => hne (BitVec.eq_of_toNat_eq h))

/-- Slot `j` is before `head` or is `head`, when it is before the advanced `head`. -/
theorem unread_or_head_of_lt_advanced {s : Block aw} {j : Index aw} (hj : (j - s.tail).toNat < (s.head + 1 - s.tail).toNat) :
    (j - s.tail).toNat < s.count.toNat ∨ j = s.head := by
  have hle : (s.head + 1 - s.tail).toNat ≤ (s.head - s.tail).toNat + 1 := by
    rw [← sub_add_eq_add_sub]
    exact index_succ_toNat_le _
  rw [count_eq]
  refine (Nat.lt_or_eq_of_le (Nat.le_of_lt_succ (hj.trans_le hle))).imp_right (fun h => ?_)
  exact sub_left_injective (BitVec.eq_of_toNat_eq h)

/-- In a full buffer every slot but `head` is unread. -/
theorem unread_of_full {s : Block aw} (hfull : s.isFull = true) {j : Index aw} (hj : j ≠ s.head) :
    (j - s.tail).toNat < s.count.toNat := by
  rw [count_eq]
  refine index_lt_of_succ_eq_zero ?_ (fun h => hj (sub_left_injective h))
  rw [sub_add_eq_add_sub, (isFull_iff s).mp hfull, sub_self]

/-- What is unread past the advanced `tail` of a buffer with a byte was unread before. -/
theorem unread_of_unread_past_tail {s : Block aw} (hne : s.head ≠ s.tail) {j : Index aw}
    (hj : (j - (s.tail + 1)).toNat < (s.head - (s.tail + 1)).toNat) : (j - s.tail).toNat < s.count.toNat := by
  have hpred (x : Index aw) : x - s.tail = x - (s.tail + 1) + 1 := by abel
  have hpos : s.head - (s.tail + 1) + 1 ≠ 0 := by
    rw [← hpred]
    exact sub_ne_zero.mpr hne
  rw [count_eq, hpred j, hpred s.head, index_succ_toNat hpos]
  exact (index_succ_toNat_le _).trans_lt (Nat.succ_lt_succ hj)

/-! ### RESET -/

/-- A cleared block has the invariant: nothing is unread and nothing has overrun. -/
theorem blockInv_of_cleared {s : Block aw} (hmem : s.mem = []) (hempty : s.head = s.tail) (hovf : s.ovf = false)
    (hphase : s.cphase = .idle) (htrace : s.trace = []) : BlockInv s where
  memory := by rw [hmem]; exact emptyMemory_wfAt aw
  flag := by simp [hovf, htrace]
  pending := fun h => absurd hphase h
  unreadWritten := by
    intro j hj
    rw [count_eq, hempty, sub_self] at hj
    exact absurd hj (Nat.not_lt_zero _)
  lapWritten := fun h => by simp [hovf] at h

theorem blockInv_reset (aw : Nat) : BlockInv (Block.reset aw) := blockInv_of_cleared rfl rfl rfl rfl rfl

theorem blockInv_resetBlock (s : Block aw) : BlockInv (resetBlock s) := blockInv_of_cleared rfl rfl rfl rfl rfl

/-! ### PUSH -/

theorem written_pushByte_iff {b : Byte} {s : Block aw} {a : Nat} :
    (pushByte b s).written a ↔ a = s.head.toNat ∨ s.written a := by
  rw [Block.written, Block.written, pushByte_mem, memRead_memWrite]
  split <;> simp [*]

/-- A PUSH writes the one slot that it makes readable; one that finds FULL writes the one slot not yet written. -/
protected theorem BlockInv.pushByte {s : Block aw} (h : BlockInv s) (b : Byte) : BlockInv (pushByte b s) where
  memory := by rw [pushByte_mem]; exact memWrite_wfAt s.mem s.head b h.memory
  flag := by
    rw [pushByte_ovf, pushByte_trace, Bool.or_eq_true, h.flag]
    split <;> simp [*]
  pending := by
    intro _ hovf
    rw [pushByte_ovf, Bool.or_eq_false_iff] at hovf
    rw [pushByte_head, pushByte_tail]
    exact (isFull_eq_false_iff s).mp hovf.2
  unreadWritten := by
    intro j hj
    rw [count_eq, pushByte_head, pushByte_tail] at hj
    rw [written_pushByte_iff]
    obtain hunread | rfl := unread_or_head_of_lt_advanced hj
    · exact .inr (h.unreadWritten j hunread)
    · exact .inl rfl
  lapWritten := by
    intro hovf a ha
    rw [pushByte_ovf, Bool.or_eq_true] at hovf
    rw [written_pushByte_iff]
    obtain hlap | hfull := hovf
    · exact .inr (h.lapWritten hlap a ha)
    · have hslot : (BitVec.ofNat aw a).toNat = a := (BitVec.toNat_ofNat a aw).trans (Nat.mod_eq_of_lt ha)
      by_cases hj : BitVec.ofNat aw a = s.head
      · exact .inl (by rw [← hj, hslot])
      · have hwritten := h.unreadWritten _ (unread_of_full hfull hj)
        rw [hslot] at hwritten
        exact .inr hwritten

protected theorem BlockInv.pushBytes {s : Block aw} (h : BlockInv s) (bs : List Byte) : BlockInv (pushBytes bs s) :=
  pushBytes_keeps (fun b _ hs => hs.pushByte b) bs h

/-! ### The consumer's steps -/

/-- What a step of the consumer may do: it leaves the slots, `head` and the overruns, and advances `tail` at most by one, past a
byte or after a lap. -/
structure ConsumerMove (s t : Block aw) : Prop where
  mem : t.mem = s.mem
  head : t.head = s.head
  ovf : t.ovf = s.ovf
  overruns : Event.overrun ∈ t.trace ↔ Event.overrun ∈ s.trace
  tail : t.tail = s.tail ∨ t.tail = s.tail + 1 ∧ (s.ovf = false → s.head ≠ s.tail)

theorem ConsumerMove.written_iff {s t : Block aw} (m : ConsumerMove s t) (a : Nat) : t.written a ↔ s.written a := by
  rw [Block.written, Block.written, m.mem]

/-- What is unread after a move was unread before, or a lap has written every slot. -/
theorem ConsumerMove.unreadWritten {s t : Block aw} (m : ConsumerMove s t) (h : BlockInv s) : t.unreadWritten := by
  intro j hj
  rw [m.written_iff]
  rw [count_eq, m.head] at hj
  obtain htail | ⟨htail, hbyte⟩ := m.tail
  · rw [htail, ← count_eq] at hj
    exact h.unreadWritten j hj
  · cases hovf : s.ovf with
    | true => exact h.lapWritten hovf j.toNat (index_lt j)
    | false =>
      rw [htail] at hj
      exact h.unreadWritten j (unread_of_unread_past_tail (hbyte hovf) hj)

/-- A move keeps the invariant when the read it leaves in progress has its byte. -/
theorem ConsumerMove.blockInv {s t : Block aw} (m : ConsumerMove s t) (h : BlockInv s)
    (hpending : t.cphase ≠ .idle → t.ovf = false → t.head ≠ t.tail) : BlockInv t where
  memory := by rw [m.mem]; exact h.memory
  flag := by rw [m.ovf, m.overruns]; exact h.flag
  pending := hpending
  unreadWritten := m.unreadWritten h
  lapWritten := fun hovf a ha => (m.written_iff a).mpr (h.lapWritten (m.ovf ▸ hovf) a ha)

protected theorem BlockInv.samplePointers {s : Block aw} (h : BlockInv s) : BlockInv (samplePointers s) :=
  ConsumerMove.blockInv (s := s) ⟨rfl, rfl, rfl, Iff.rfl, .inl rfl⟩ h (fun hp _ he => hp ((samplePointers_idle_iff s).mpr he))

protected theorem BlockInv.latchSlot {s : Block aw} (h : BlockInv s) (hp : s.cphase = .sampled) : BlockInv (latchSlot s) :=
  ConsumerMove.blockInv (s := s) ⟨rfl, rfl, rfl, Iff.rfl, .inl rfl⟩ h (fun _ => h.pending (by simp [hp]))

protected theorem BlockInv.deliverLatch {s : Block aw} (h : BlockInv s) (hp : s.cphase = .read) : BlockInv (deliverLatch s) :=
  ConsumerMove.blockInv (s := s) ⟨rfl, rfl, rfl, by simp, .inr ⟨deliverLatch_tail s, h.pending (by simp [hp])⟩⟩ h
    (fun hidle => absurd rfl hidle)

/-- A fused read is a comparison alone or a split read (41_consumer.md R133). -/
protected theorem BlockInv.popByte {s : Block aw} (h : BlockInv s) : BlockInv (popByte s) := by
  by_cases he : s.head = s.tail
  · rw [popByte_eq_samplePointers he]
    exact h.samplePointers
  · rw [popByte_eq_split he]
    have hsampled : (samplePointers s).cphase = .sampled := by rw [samplePointers_of_nonempty he]
    exact (h.samplePointers.latchSlot hsampled).deliverLatch rfl

/-! ### Every operation -/

protected theorem BlockInv.perform {admits : Phase → Bool} {effect : Block aw → Block aw} {s t : Block aw}
    (heffect : admits s.cphase = true → BlockInv (effect s)) (ht : perform admits effect s = .next t) : BlockInv t := by
  obtain ⟨_, hp, rfl⟩ := perform_next_iff.mp ht
  exact heffect hp

/-- Every operation keeps the invariant, at every index width. -/
protected theorem BlockInv.execAt {i : Instr} {s t : Block aw} (h : BlockInv s) (ht : execAt i s = .next t) : BlockInv t := by
  cases i with
  | nop => exact BlockInv.perform (fun _ => h) ht
  | push b => exact BlockInv.perform (fun _ => h.pushByte b) ht
  | popS => exact BlockInv.perform (fun _ => h.samplePointers) ht
  | popR => exact BlockInv.perform (fun hp => h.latchSlot ((onlyIn_iff _ _).mp hp)) ht
  | popA => exact BlockInv.perform (fun hp => h.deliverLatch ((onlyIn_iff _ _).mp hp)) ht
  | pop => exact BlockInv.perform (fun _ => h.popByte) ht
  | reset => cases ht; exact blockInv_resetBlock s
  | drain gaps =>
    obtain ⟨_, hp, hloop⟩ := performLoop_next_iff.mp ht
    exact drainLoop_keeps (fun b _ hs => hs.pushByte b) (fun _ _ hs => hs.samplePointers) (fun _ hp hs => hs.latchSlot hp)
      (fun _ hp hs => hs.deliverLatch hp) _ gaps ((onlyIn_iff _ _).mp hp) h hloop
  | drainF gaps =>
    obtain ⟨_, hp, hloop⟩ := performLoop_next_iff.mp ht
    exact drainFLoop_keeps (fun b _ hs => hs.pushByte b) (fun _ _ hs => hs.popByte) _ gaps ((onlyIn_iff _ _).mp hp) h hloop
  | pushS text => exact BlockInv.perform (fun _ => h.pushBytes (textBytes text)) ht
  | pushN n f => exact BlockInv.perform (fun _ => h.pushBytes (seriesBytes n f)) ht

/-- Settles O44: the invariant of the cleared block, and every operation's keeping of it. -/
theorem everyWidthKeepsTheInvariant : Obligations.EveryWidthKeepsTheInvariant :=
  fun aw _ => ⟨blockInv_reset aw, fun _ _ _ h ht => h.execAt ht⟩

end Sys2Proof.Machine
end

section
/-! SUPPORT. The first-in first-out invariant: which push the next delivery gives (`latestPush`), and how each operation with a
token keeps `FifoInv`, at every index width. -/

namespace Sys2Proof.Machine

/-! ### The latest push of a slot (41_consumer.md R140)

`latestPush depth c p` is the last number below `p` that is `c` modulo `depth`. -/

section LatestPush

variable {depth c p q : Nat}

theorem latestPush_mod : latestPush depth c p % depth = c % depth := Nat.add_mul_mod_self_left ..

theorem latestPush_lt (hcp : c < p) : latestPush depth c p < p := by
  have hle := Nat.mul_div_le (p - c - 1) depth
  unfold latestPush
  omega

/-- The slot is not written again after its latest push. -/
theorem le_latestPush_add (hd : 0 < depth) : p ≤ latestPush depth c p + depth := by
  have hlt := Nat.lt_mul_div_succ (p - c - 1) hd
  rw [Nat.mul_succ] at hlt
  unfold latestPush
  omega

theorem latestPush_mono (hpq : p ≤ q) : latestPush depth c p ≤ latestPush depth c q := by
  unfold latestPush
  gcongr

/-- Before a lap the next delivery is the oldest byte not yet delivered. -/
theorem latestPush_eq_self (hd : 0 < depth) (hp : p ≤ c + depth) : latestPush depth c p = c := by
  rw [latestPush, Nat.div_eq_of_lt (by omega), Nat.mul_zero, Nat.add_zero]

/-- A push into a buffer that reads empty is the next delivery. -/
theorem latestPush_succ_of_empty (hcp : c ≤ p) (hempty : (p - c) % depth = 0) : latestPush depth c (p + 1) = p := by
  have hwait : p + 1 - c - 1 = p - c := by omega
  rw [latestPush, hwait, Nat.mul_div_cancel' (Nat.dvd_of_mod_eq_zero hempty), Nat.add_sub_cancel' hcp]

/-- While a byte is left to read, the delivery after the next gives the push after the next one's. -/
theorem latestPush_succ_of_nonempty (hne : (p - (c + 1)) % depth ≠ 0) :
    latestPush depth (c + 1) p = latestPush depth c p + 1 := by
  cases hk : p - (c + 1) with
  | zero => simp [hk] at hne
  | succ k =>
    rw [hk] at hne
    rw [latestPush, latestPush, Nat.sub_sub p c 1, hk, Nat.add_sub_cancel,
      Nat.succ_div_of_not_dvd (fun hdvd => hne (Nat.mod_eq_zero_of_dvd hdvd)), Nat.add_right_comm]

end LatestPush

/-! ### Deliveries in push order (70_reset_and_hazards.md R221) -/

/-- The pushes at the positions `idx`, already delivered, all came before the push that the next delivery gives after `p`
pushes. -/
def PrecedeNext (depth : Nat) (idx : List Nat) (p : Nat) : Prop := ∀ n ∈ idx, n < latestPush depth idx.length p

section PrecedeNext

variable {depth p q : Nat} {idx : List Nat}

theorem PrecedeNext.mono (h : PrecedeNext depth idx p) (hpq : p ≤ q) : PrecedeNext depth idx q :=
  fun n hn => (h n hn).trans_le (latestPush_mono hpq)

/-- After a push the next delivery comes later than all before it, even when nothing was left to read. -/
theorem precedeNext_succ (hlen : idx.length ≤ p) (hrange : ∀ n ∈ idx, n < p)
    (h : (p - idx.length) % depth ≠ 0 → PrecedeNext depth idx p) : PrecedeNext depth idx (p + 1) := by
  by_cases hempty : (p - idx.length) % depth = 0
  · intro n hn
    rw [latestPush_succ_of_empty hlen hempty]
    exact hrange n hn
  · exact (h hempty).mono (Nat.le_succ p)

/-- A delivery of what was next after `q` pushes: what is next after it, if anything is left to read, comes later still. -/
theorem PrecedeNext.concat (h : PrecedeNext depth idx q) (hqp : q ≤ p) (hne : (p - (idx.length + 1)) % depth ≠ 0) :
    PrecedeNext depth (idx ++ [latestPush depth idx.length q]) p := by
  have hnext : latestPush depth idx.length q < latestPush depth (idx.length + 1) p := by
    rw [latestPush_succ_of_nonempty hne]
    exact Nat.lt_succ_of_le (latestPush_mono hqp)
  rw [PrecedeNext, List.length_append, List.length_singleton, List.forall_mem_append, List.forall_mem_singleton]
  exact ⟨fun n hn => (h n hn).trans hnext, hnext⟩

theorem PrecedeNext.pairwise_concat (h : PrecedeNext depth idx q) (hidx : idx.Pairwise (· < ·)) :
    (idx ++ [latestPush depth idx.length q]).Pairwise (· < ·) :=
  List.pairwise_append.mpr ⟨hidx, List.pairwise_singleton _ _, by simpa [PrecedeNext] using h⟩

end PrecedeNext

variable {aw : Nat}

/-- The clauses of `FifoInv.order`, by name: the deliveries so far gave the pushes at the positions `idx`. -/
structure DeliveredAt (pushed : List Byte) (s : Block aw) (idx : List Nat) : Prop where
  bytes : s.delivered = idx.map (fun n => pushed.getD n 0)
  increasing : idx.Pairwise (· < ·)
  inRange : ∀ n ∈ idx, n < pushed.length
  idle : s.cphase = .idle → (pushed.length - idx.length) % Config.depthOf aw ≠ 0 →
    PrecedeNext (Config.depthOf aw) idx pushed.length
  sampled : s.cphase = .sampled → PrecedeNext (Config.depthOf aw) idx pushed.length
  read : s.cphase = .read → ∃ p, idx.length < p ∧ p ≤ pushed.length ∧
    pushed[latestPush (Config.depthOf aw) idx.length p]? = some s.rdLatch ∧ PrecedeNext (Config.depthOf aw) idx p

theorem FifoInv.exists_deliveredAt {pushed : List Byte} {s : Block aw} (h : FifoInv pushed s) :
    ∃ idx, DeliveredAt pushed s idx := by
  obtain ⟨idx, bytes, increasing, inRange, idle, sampled, read⟩ := h.order
  exact ⟨idx, bytes, increasing, inRange, idle, sampled, read⟩

theorem DeliveredAt.length_eq {pushed : List Byte} {s : Block aw} {idx : List Nat} (d : DeliveredAt pushed s idx) :
    s.delivered.length = idx.length := by
  rw [d.bytes, List.length_map]

/-- The invariant from its parts, with the positions delivered so far. -/
theorem DeliveredAt.fifoInv {pushed : List Byte} {s : Block aw} {idx : List Nat} (d : DeliveredAt pushed s idx)
    (head : s.head.toNat = pushed.length % Config.depthOf aw)
    (tail : s.tail.toNat = s.delivered.length % Config.depthOf aw)
    (behind : s.delivered.length ≤ pushed.length)
    (reading : s.cphase ≠ .idle → s.delivered.length < pushed.length)
    (slots : ∀ n, n < pushed.length → pushed.length ≤ n + Config.depthOf aw →
      memRead s.mem (n % Config.depthOf aw) = pushed[n]?)
    (noLoss : s.ovf = false →
      pushed.length ≤ s.delivered.length + Config.usableOf aw ∧ s.delivered = pushed.take s.delivered.length) :
    FifoInv pushed s :=
  { head, tail, behind, reading, slots, noLoss
    order := ⟨idx, d.bytes, d.increasing, d.inRange, d.idle, d.sampled, d.read⟩ }

/-! ### What the invariant says of the pointers and of the slot at `tail` -/

theorem depthOf_pos (aw : Nat) : 0 < Config.depthOf aw := Nat.two_pow_pos aw

section Reads

variable {pushed : List Byte} {s : Block aw}

/-- With a byte to read, the pushes and deliveries differ by no whole number of laps (10_state.md R35, R36). -/
theorem FifoInv.waiting_ne_zero (h : FifoInv pushed s) (hne : s.head ≠ s.tail) :
    (pushed.length - s.delivered.length) % Config.depthOf aw ≠ 0 := by
  intro hzero
  have hmod : s.delivered.length % Config.depthOf aw = pushed.length % Config.depthOf aw :=
    (Nat.modEq_iff_dvd' h.behind).mpr (Nat.dvd_of_mod_eq_zero hzero)
  exact hne (BitVec.eq_of_toNat_eq (by rw [h.head, h.tail, hmod]))

theorem FifoInv.delivered_lt_of_nonempty (h : FifoInv pushed s) (hne : s.head ≠ s.tail) :
    s.delivered.length < pushed.length := by
  refine h.behind.lt_of_ne (fun heq => h.waiting_ne_zero hne ?_)
  rw [heq, Nat.sub_self, Nat.zero_mod]

/-- Slot `tail` holds the byte of the latest push that wrote it (41_consumer.md R140). -/
theorem FifoInv.loadSlot_tail (h : FifoInv pushed s) (hlt : s.delivered.length < pushed.length) :
    pushed[latestPush (Config.depthOf aw) s.delivered.length pushed.length]? = some (loadSlot s s.tail) := by
  have hslot := h.slots _ (latestPush_lt hlt) (le_latestPush_add (depthOf_pos aw))
  rw [latestPush_mod, ← h.tail] at hslot
  rw [loadSlot, hslot, List.getElem?_eq_getElem (latestPush_lt hlt), Option.getD_some]

/-- Without an overrun the next delivery is the oldest byte not yet delivered, however many of the pushes it looks at. -/
theorem FifoInv.latestPush_eq_of_noLoss (h : FifoInv pushed s) (hovf : s.ovf = false) {p : Nat} (hp : p ≤ pushed.length) :
    latestPush (Config.depthOf aw) s.delivered.length p = s.delivered.length := by
  have husable : Config.usableOf aw ≤ Config.depthOf aw := Nat.sub_le _ _
  exact latestPush_eq_self (depthOf_pos aw) (hp.trans ((h.noLoss hovf).1.trans (Nat.add_le_add_left husable _)))

end Reads

/-! ### RESET -/

/-- A cleared block is explained by the empty history. -/
theorem fifoInv_of_cleared {s : Block aw} (hhead : s.head = 0) (htail : s.tail = 0) (hphase : s.cphase = .idle)
    (htrace : s.trace = []) : FifoInv [] s where
  head := by rw [hhead]; simp
  tail := by rw [htail, delivered_eq, htrace]; simp
  behind := by simp [delivered_eq, htrace]
  reading := fun h => absurd hphase h
  slots := fun n hn => absurd hn (Nat.not_lt_zero n)
  order := ⟨[], by simp [delivered_eq, htrace], List.Pairwise.nil, by simp, by simp, by simp, by simp [hphase]⟩
  noLoss := fun _ => by simp [delivered_eq, htrace]

theorem fifoInv_reset (aw : Nat) : FifoInv [] (Block.reset aw) := fifoInv_of_cleared rfl rfl rfl rfl

theorem fifoInv_resetBlock (s : Block aw) : FifoInv [] (resetBlock s) := fifoInv_of_cleared rfl rfl rfl rfl

/-! ### PUSH -/

section Push

variable {pushed : List Byte} {s : Block aw} {idx : List Nat}

/-- The positions delivered stay what they are when the history grows. -/
theorem DeliveredAt.pushByte (d : DeliveredAt pushed s idx) (hbehind : idx.length ≤ pushed.length) (b : Byte) :
    DeliveredAt (pushed ++ [b]) (pushByte b s) idx where
  bytes := by
    rw [pushByte_delivered, d.bytes]
    exact List.map_congr_left (fun n hn => (List.getD_append pushed [b] 0 n (d.inRange n hn)).symm)
  increasing := d.increasing
  inRange := fun n hn => by simpa using Nat.lt_succ_of_lt (d.inRange n hn)
  idle := by
    intro hp _
    rw [pushByte_cphase] at hp
    rw [List.length_append, List.length_singleton]
    exact precedeNext_succ hbehind d.inRange (d.idle hp)
  sampled := by
    intro hp
    rw [pushByte_cphase] at hp
    exact (d.sampled hp).mono (by simp)
  read := by
    intro hp
    rw [pushByte_cphase] at hp
    obtain ⟨p, hlt, hle, hlatch, hnext⟩ := d.read hp
    refine ⟨p, hlt, hle.trans (by simp), ?_, hnext⟩
    rw [pushByte_rdLatch, List.getElem?_append_left ((latestPush_lt hlt).trans_le hle)]
    exact hlatch

/-- The new byte is in the slot at `head`; the others of the last `DEPTH` pushes are in other slots. -/
theorem FifoInv.memRead_pushByte (h : FifoInv pushed s) (b : Byte) {n : Nat} (hn : n < pushed.length + 1)
    (hlap : pushed.length + 1 ≤ n + Config.depthOf aw) :
    memRead (Machine.pushByte b s).mem (n % Config.depthOf aw) = (pushed ++ [b])[n]? := by
  rw [pushByte_mem, memRead_memWrite, h.head]
  obtain hlt | rfl := Nat.lt_succ_iff_lt_or_eq.mp hn
  · have hother : n % Config.depthOf aw ≠ pushed.length % Config.depthOf aw := by
      intro hmod
      have hle := Nat.le_of_dvd (by omega) ((Nat.modEq_iff_dvd' hlt.le).mp hmod)
      omega
    rw [if_neg hother, List.getElem?_append_left hlt]
    exact h.slots n hlt (by omega)
  · simp

/-- A push that does not find FULL leaves at most `USABLE` bytes undelivered. -/
theorem FifoInv.room_of_not_full (h : FifoInv pushed s) (hovf : s.ovf = false) (hfull : s.isFull = false) :
    pushed.length + 1 ≤ s.delivered.length + Config.usableOf aw := by
  have hle : pushed.length ≤ s.delivered.length + (Config.depthOf aw - 1) := (h.noLoss hovf).1
  have hpos := depthOf_pos aw
  have hne : pushed.length + 1 ≠ s.delivered.length + Config.depthOf aw := by
    intro heq
    rw [← Bool.not_eq_true, isFull_iff_toNat, h.head, h.tail, Nat.mod_add_mod, heq, Nat.add_mod_right] at hfull
    exact hfull rfl
  show _ ≤ _ + (Config.depthOf aw - 1)
  omega

protected theorem FifoInv.pushByte (h : FifoInv pushed s) (b : Byte) :
    FifoInv (pushed ++ [b]) (Machine.pushByte b s) := by
  obtain ⟨idx, d⟩ := h.exists_deliveredAt
  have hlen : (pushed ++ [b]).length = pushed.length + 1 := by simp
  refine (d.pushByte (d.length_eq ▸ h.behind) b).fifoInv ?head ?tail ?behind ?reading ?slots ?noLoss
  case head => rw [pushByte_head, ← advance_eq, advance_toNat, h.head, Nat.mod_add_mod, hlen]
  case tail => rw [pushByte_tail, pushByte_delivered, h.tail]
  case behind => rw [pushByte_delivered, hlen]; exact Nat.le_succ_of_le h.behind
  case reading => intro _; rw [pushByte_delivered, hlen]; exact Nat.lt_succ_of_le h.behind
  case slots => intro n; rw [hlen]; exact h.memRead_pushByte b
  case noLoss =>
    intro hovf
    rw [pushByte_ovf, Bool.or_eq_false_iff] at hovf
    rw [pushByte_delivered, hlen, List.take_append_of_le_length h.behind]
    exact ⟨h.room_of_not_full hovf.1 hovf.2, (h.noLoss hovf.1).2⟩

end Push

/-! ### The consumer's steps -/

section Consumer

variable {pushed : List Byte} {s t : Block aw}

/-- A step that delivers nothing and leaves slots, pointers and trace keeps the invariant when the phase it enters is one that
the history explains. -/
theorem FifoInv.of_no_delivery (h : FifoInv pushed s) (hmem : t.mem = s.mem) (hhead : t.head = s.head)
    (htail : t.tail = s.tail) (hovf : t.ovf = s.ovf) (htrace : t.trace = s.trace)
    (hreading : t.cphase ≠ .idle → s.delivered.length < pushed.length) {idx : List Nat} (d : DeliveredAt pushed t idx) :
    FifoInv pushed t := by
  have hdelivered : t.delivered = s.delivered := by rw [delivered_eq, delivered_eq, htrace]
  refine d.fifoInv ?_ ?_ ?_ ?_ ?_ ?_
  · rw [hhead]; exact h.head
  · rw [htail, hdelivered]; exact h.tail
  · rw [hdelivered]; exact h.behind
  · rw [hdelivered]; exact hreading
  · rw [hmem]; exact h.slots
  · rw [hovf, hdelivered]; exact h.noLoss

/-- POP.S enters SAMPLED only with a byte to read, which then is the next delivery. -/
protected theorem FifoInv.samplePointers (h : FifoInv pushed s) (hp : s.cphase = .idle) :
    FifoInv pushed (samplePointers s) := by
  by_cases he : s.head = s.tail
  · rw [samplePointers_of_empty he, ← hp]
    exact h
  · have hphase : (samplePointers s).cphase = .sampled := by rw [samplePointers_of_nonempty he]
    obtain ⟨idx, d⟩ := h.exists_deliveredAt
    refine h.of_no_delivery rfl rfl rfl rfl rfl (fun _ => h.delivered_lt_of_nonempty he) (idx := idx) ?_
    exact
      { bytes := d.bytes
        increasing := d.increasing
        inRange := d.inRange
        idle := fun hidle => by simp [hphase] at hidle
        sampled := fun _ => d.idle hp (d.length_eq ▸ h.waiting_ne_zero he)
        read := fun hread => by simp [hphase] at hread }

/-- POP.R latches the next delivery of the pushes so far. -/
protected theorem FifoInv.latchSlot (h : FifoInv pushed s) (hp : s.cphase = .sampled) : FifoInv pushed (latchSlot s) := by
  have hlt : s.delivered.length < pushed.length := h.reading (by simp [hp])
  obtain ⟨idx, d⟩ := h.exists_deliveredAt
  refine h.of_no_delivery rfl rfl rfl rfl rfl (fun _ => hlt) (idx := idx) ?_
  exact
    { bytes := d.bytes
      increasing := d.increasing
      inRange := d.inRange
      idle := fun hidle => by simp at hidle
      sampled := fun hsampled => by simp at hsampled
      read := fun _ => ⟨pushed.length, d.length_eq ▸ hlt, le_rfl, d.length_eq ▸ h.loadSlot_tail hlt, d.sampled hp⟩ }

/-- POP.A delivers the push that POP.R latched: a later one than all before it. -/
theorem DeliveredAt.deliverLatch {idx : List Nat} (d : DeliveredAt pushed s idx) {p : Nat} (hlt : idx.length < p)
    (hle : p ≤ pushed.length) (hlatch : pushed[latestPush (Config.depthOf aw) idx.length p]? = some s.rdLatch)
    (hnext : PrecedeNext (Config.depthOf aw) idx p) :
    DeliveredAt pushed (deliverLatch s) (idx ++ [latestPush (Config.depthOf aw) idx.length p]) where
  bytes := by simp [d.bytes, List.getD_eq_getElem?_getD, hlatch]
  increasing := hnext.pairwise_concat d.increasing
  inRange := List.forall_mem_append.mpr
    ⟨d.inRange, List.forall_mem_singleton.mpr ((latestPush_lt hlt).trans_le hle)⟩
  idle := by
    intro _ hne
    rw [List.length_append, List.length_singleton] at hne
    exact hnext.concat hle hne
  sampled := fun hsampled => by simp at hsampled
  read := fun hread => by simp at hread

protected theorem FifoInv.deliverLatch (h : FifoInv pushed s) (hp : s.cphase = .read) :
    FifoInv pushed (deliverLatch s) := by
  obtain ⟨idx, d⟩ := h.exists_deliveredAt
  obtain ⟨p, hlt, hle, hlatch, hnext⟩ := d.read hp
  have hwaiting : s.delivered.length < pushed.length := h.reading (by simp [hp])
  have hlen : (deliverLatch s).delivered.length = s.delivered.length + 1 := by simp
  refine (d.deliverLatch hlt hle hlatch hnext).fifoInv ?head ?tail ?behind ?reading ?slots ?noLoss
  case head => exact h.head
  case tail => rw [deliverLatch_tail, ← advance_eq, advance_toNat, h.tail, Nat.mod_add_mod, hlen]
  case behind => rw [hlen]; exact hwaiting
  case reading => exact fun hidle => absurd rfl hidle
  case slots => exact h.slots
  case noLoss =>
    intro hovf
    rw [deliverLatch_ovf] at hovf
    obtain ⟨hroom, hprefix⟩ := h.noLoss hovf
    have holdest : pushed[s.delivered.length]? = some s.rdLatch := by
      rw [← h.latestPush_eq_of_noLoss hovf hle, d.length_eq, hlatch]
    refine ⟨by rw [hlen]; omega, ?_⟩
    rw [hlen, deliverLatch_delivered, List.take_add_one, holdest, Option.toList_some, ← hprefix]

/-- A fused read is a comparison alone or a split read (41_consumer.md R133). -/
protected theorem FifoInv.popByte (h : FifoInv pushed s) (hp : s.cphase = .idle) : FifoInv pushed (popByte s) := by
  by_cases he : s.head = s.tail
  · rw [popByte_eq_samplePointers he]
    exact h.samplePointers hp
  · rw [popByte_eq_split he]
    have hsampled : (samplePointers s).cphase = .sampled := by rw [samplePointers_of_nonempty he]
    exact ((h.samplePointers hp).latchSlot hsampled).deliverLatch rfl

end Consumer

/-! ### Every operation with a token -/

/-- At every index width the history after an operation with a token explains the block after it. -/
protected theorem FifoInv.execAt {pushed : List Byte} {i : Instr} {s t : Block aw} (h : FifoInv pushed s)
    (hi : i.isCore = true) (ht : execAt i s = .next t) : FifoInv (historyAfter i pushed) t := by
  cases i with
  | nop => obtain ⟨_, _, rfl⟩ := perform_next_iff.mp ht; exact h
  | push b => obtain ⟨_, _, rfl⟩ := perform_next_iff.mp ht; exact h.pushByte b
  | popS => obtain ⟨_, hp, rfl⟩ := perform_next_iff.mp ht; exact h.samplePointers ((onlyIn_iff _ _).mp hp)
  | popR => obtain ⟨_, hp, rfl⟩ := perform_next_iff.mp ht; exact h.latchSlot ((onlyIn_iff _ _).mp hp)
  | popA => obtain ⟨_, hp, rfl⟩ := perform_next_iff.mp ht; exact h.deliverLatch ((onlyIn_iff _ _).mp hp)
  | pop => obtain ⟨_, hp, rfl⟩ := perform_next_iff.mp ht; exact h.popByte ((onlyIn_iff _ _).mp hp)
  | reset => cases ht; exact fifoInv_resetBlock s
  | drain | drainF | pushS | pushN => cases hi

/-- Settles O48: the block's operation at `AW = 8`, each case by the lemma of its step. -/
theorem everyOperationKeepsTheFifoInvariant : Obligations.EveryOperationKeepsTheFifoInvariant :=
  fun _ _ _ _ hi h ht => h.execAt hi (exec_next_iff.mp ht).1

/-- Settles O49: the cleared block at `AW = 8`. -/
theorem fifoInvariantHoldsAtReset : Obligations.FifoInvariantHoldsAtReset := fifoInv_reset Config.AW

end Sys2Proof.Machine
end

section
/-! SUPPORT. What no operation does: run before the first RESET, or move a pointer by more than one (10_state.md R24, R44). -/

namespace Sys2Proof.Machine

variable {aw : Nat}

/-! ### Before the first RESET -/

theorem execAt_before_reset {i : Instr} {s : Block aw} (hr : s.hadReset = false) (hi : i ≠ .reset) :
    execAt i s = .refused .beforeReset := by
  cases i with
  | reset => exact absurd rfl hi
  | drain | drainF => exact performLoop_before_reset hr
  | nop | push | popS | popR | popA | pop | pushS | pushN => exact perform_before_reset hr

/-- Settles O11: each guard refuses, and RESET has none. -/
theorem onlyResetRunsBeforeTheFirstReset : Obligations.OnlyResetRunsBeforeTheFirstReset := by
  intro s hr
  refine ⟨fun i hi => exec_refused_iff.mpr (execAt_before_reset hr hi), ?_⟩
  exact ⟨{ s with toBlock := resetBlock s.toBlock }, rfl, rfl⟩

/-! ### The pointers -/

/-- At most one pointer moves, and only to its successor. -/
structure PointerStep (s t : Block aw) : Prop where
  head : t.head = s.head ∨ t.head = s.head + 1
  tail : t.tail = s.tail ∨ t.tail = s.tail + 1
  notBoth : t.head = s.head ∨ t.tail = s.tail

theorem PointerStep.of_same {s t : Block aw} (hhead : t.head = s.head) (htail : t.tail = s.tail) : PointerStep s t :=
  ⟨.inl hhead, .inl htail, .inl hhead⟩

theorem PointerStep.of_tail_succ {s t : Block aw} (hhead : t.head = s.head) (htail : t.tail = s.tail + 1) :
    PointerStep s t :=
  ⟨.inl hhead, .inr htail, .inl hhead⟩

/-- PUSH moves `head`. -/
theorem pointerStep_pushByte (b : Byte) (s : Block aw) : PointerStep s (pushByte b s) :=
  ⟨.inr (pushByte_head b s), .inl (pushByte_tail b s), .inr (pushByte_tail b s)⟩

/-- POP.A moves `tail`. -/
theorem pointerStep_deliverLatch (s : Block aw) : PointerStep s (deliverLatch s) :=
  .of_tail_succ rfl (deliverLatch_tail s)

/-- POP moves `tail` when it finds a byte. -/
theorem pointerStep_popByte (s : Block aw) : PointerStep s (popByte s) := by
  by_cases he : s.head = s.tail
  · rw [popByte_eq_samplePointers he]
    exact .of_same rfl rfl
  · rw [popByte_eq_split he]
    exact .of_tail_succ rfl (deliverLatch_tail _)

theorem execAt_pointerStep {i : Instr} {s t : Block aw} (hi : i.isCore = true) (hreset : i ≠ .reset)
    (ht : execAt i s = .next t) : PointerStep s t := by
  cases i with
  | nop => obtain ⟨_, _, rfl⟩ := perform_next_iff.mp ht; exact .of_same rfl rfl
  | push b => obtain ⟨_, _, rfl⟩ := perform_next_iff.mp ht; exact pointerStep_pushByte b s
  | popS | popR => obtain ⟨_, _, rfl⟩ := perform_next_iff.mp ht; exact .of_same rfl rfl
  | popA => obtain ⟨_, _, rfl⟩ := perform_next_iff.mp ht; exact pointerStep_deliverLatch s
  | pop => obtain ⟨_, _, rfl⟩ := perform_next_iff.mp ht; exact pointerStep_popByte s
  | reset => exact absurd rfl hreset
  | drain | drainF | pushS | pushN => cases hi

/-- Settles O36: the pointers' step of the block, with the successor as a natural. -/
theorem pointersMoveOnlyByOne : Obligations.PointersMoveOnlyByOne := by
  intro i s t hi hreset ht
  have hstep := execAt_pointerStep hi hreset (exec_next_iff.mp ht).1
  have hsucc {x y : Index Config.AW} (h : y = x + 1) : y.toNat = (x.toNat + 1) % 256 := by
    rw [h, ← advance_eq]
    exact advance_toNat x
  exact ⟨hstep.head.imp_right hsucc, hstep.tail.imp_right hsucc, hstep.notBoth⟩

end Sys2Proof.Machine
end

section
/-! SUPPORT. The derived values EMPTY, FULL, COUNT and FREE at every index width (10_state.md R29 to R32), and the values after
RESET (R38, R39). -/

namespace Sys2Proof.Machine

variable {aw : Nat}

/-! ### EMPTY, FULL and COUNT of two pointers -/

theorem emptyAt_iff (head tail : BitVec aw) : emptyAt head tail = true ↔ head = tail := beq_iff_eq

theorem fullAt_iff (head tail : BitVec aw) : fullAt head tail = true ↔ head + 1 = tail := by
  rw [fullAt, advance_eq, beq_iff_eq]

theorem fullAt_iff_toNat (head tail : BitVec aw) : fullAt head tail = true ↔ (head.toNat + 1) % 2 ^ aw = tail.toNat := by
  rw [fullAt, beq_iff_eq, index_eq_iff, advance_toNat]

/-- COUNT with the subtraction of naturals last, as the statements write it. -/
theorem countAt_toNat (head tail : BitVec aw) :
    (countAt head tail).toNat = (head.toNat + 2 ^ aw - tail.toNat) % 2 ^ aw := by
  rw [countAt_eq, BitVec.toNat_sub, Nat.add_comm, ← Nat.add_sub_assoc tail.isLt.le]

theorem emptyAt_iff_countAt (head tail : BitVec aw) : emptyAt head tail = true ↔ (countAt head tail).toNat = 0 := by
  rw [emptyAt_iff, countAt_eq, ← sub_eq_zero, index_eq_iff]
  rfl

/-- FULL is COUNT `-1`, which is MASK. -/
theorem fullAt_iff_countAt (head tail : BitVec aw) :
    fullAt head tail = true ↔ (countAt head tail).toNat = Config.maskOf aw := by
  have hmask : (-1 : BitVec aw).toNat = Config.maskOf aw :=
    (congrArg BitVec.toNat BitVec.neg_one_eq_allOnes).trans BitVec.toNat_allOnes
  rw [fullAt_iff, countAt_eq, ← hmask, ← index_eq_iff, sub_eq_iff_eq_add, neg_add_eq_sub, eq_sub_iff_add_eq]

/-- Settles O39: EMPTY and FULL are COUNT 0 and MASK, which differ from one index bit on. -/
theorem derivedValuesForEveryWidth : Obligations.DerivedValuesForEveryWidth := by
  intro aw head tail haw
  refine ⟨emptyAt_iff head tail, ?_, fullAt_iff_toNat head tail, countAt_toNat head tail, emptyAt_iff_countAt head tail,
    fullAt_iff_countAt head tail, ?_⟩
  · rw [fullAt_iff, eq_sub_iff_add_eq]
  · rintro ⟨hempty, hfull⟩
    have hmask : Config.maskOf aw = 0 :=
      ((fullAt_iff_countAt head tail).mp hfull).symm.trans ((emptyAt_iff_countAt head tail).mp hempty)
    exact absurd (Nat.sub_eq_zero_iff_le.mp hmask) (Nat.not_le.mpr (Nat.one_lt_two_pow (Nat.pos_iff_ne_zero.mp haw)))

/-! ### FREE -/

theorem count_le_mask (s : Block aw) : s.count.toNat ≤ Config.maskOf aw := Nat.le_pred_of_lt (index_lt s.count)

theorem free_toNat (s : Block aw) : s.free.toNat = Config.maskOf aw - s.count.toNat := by
  have hle : s.count ≤ BitVec.allOnes aw := by
    rw [BitVec.le_def, BitVec.toNat_allOnes]
    exact count_le_mask s
  show (BitVec.allOnes aw - s.count).toNat = _
  rw [BitVec.toNat_sub_of_le hle, BitVec.toNat_allOnes]

theorem isFull_iff_free (s : Block aw) : s.isFull = true ↔ s.free.toNat = 0 := by
  rw [free_toNat, Nat.sub_eq_zero_iff_le, (count_le_mask s).ge_iff_eq]
  exact fullAt_iff_countAt s.head s.tail

/-- A push that does not find FULL takes one from FREE. -/
theorem free_pushByte (b : Byte) {s : Block aw} (hfull : s.isFull = false) :
    (pushByte b s).free.toNat + 1 = s.free.toNat := by
  have hfree : s.free.toNat ≠ 0 := by
    rw [Ne, ← isFull_iff_free, hfull]
    exact Bool.false_ne_true
  rw [free_toNat] at hfree
  have hcount : (pushByte b s).count.toNat = s.count.toNat + 1 := by
    rw [count_eq, pushByte_head, pushByte_tail, ← sub_add_eq_add_sub, ← count_eq]
    exact index_succ_toNat_of_lt (Nat.add_lt_of_lt_sub (Nat.lt_of_sub_ne_zero hfree))
  rw [free_toNat, free_toNat, hcount]
  omega

theorem noneFindsFull_iff (bs : List Byte) (s : Block aw) :
    noneFindsFull bs s = true ↔ bs.length ≤ s.free.toNat := by
  induction bs generalizing s with
  | nil => exact iff_of_true rfl (Nat.zero_le _)
  | cons b bs ih =>
    rw [noneFindsFull, List.length_cons, Bool.and_eq_true, ih]
    cases hfull : s.isFull with
    | true => simp [(isFull_iff_free s).mp hfull]
    | false => simp [← free_pushByte b hfull]

/-- A block with both pointers at 0 is empty. -/
theorem count_of_cleared {s : Block aw} (hhead : s.head = 0) (htail : s.tail = 0) : s.count.toNat = 0 := by
  rw [count_eq, hhead, htail, sub_self]
  rfl

theorem free_of_cleared {s : Block aw} (hhead : s.head = 0) (htail : s.tail = 0) : s.free.toNat = Config.maskOf aw := by
  rw [free_toNat, count_of_cleared hhead htail, Nat.sub_zero]

/-- Settles O40: `noneFindsFull_iff`, by induction on the row, each push taking one from FREE. -/
theorem freeCountsTheSilentPushes : Obligations.FreeCountsTheSilentPushes :=
  ⟨fun bs s => noneFindsFull_iff bs s.toBlock, fun s => free_toNat s.toBlock, free_of_cleared rfl rfl⟩

/-- Settles O18: the derived values of a block with both pointers at 0. -/
theorem stateAfterResetHoldsTheSpecValues : Obligations.StateAfterResetHoldsTheSpecValues := by
  intro s t ht
  obtain ⟨hhead, htail, hovf, hphase⟩ : t.head = 0 ∧ t.tail = 0 ∧ t.ovf = false ∧ t.cphase = .idle := by
    obtain rfl | ht := ht
    · exact ⟨rfl, rfl, rfl, rfl⟩
    · cases ht
      exact ⟨rfl, rfl, rfl, rfl⟩
  have hcount := count_of_cleared hhead htail
  have hfree : t.free.toNat = 255 := free_of_cleared hhead htail
  have hfull : t.isFull = false := by rw [← Bool.not_eq_true, isFull_iff_free, hfree]; decide
  exact ⟨hhead, htail, hovf, hphase, (isEmpty_iff t.toBlock).mpr (hhead.trans htail.symm), hcount, hfree, hfull⟩

end Sys2Proof.Machine
end

section
/-! SUPPORT. What `BlockInv` says of the slot the consumer reads (10_state.md R37). -/

namespace Sys2Proof.Machine

variable {aw : Nat}

theorem BlockInv.tail_written_of_nonempty {s : Block aw} (h : BlockInv s) (hne : s.head ≠ s.tail) :
    s.written s.tail.toNat := by
  refine h.unreadWritten s.tail ?_
  have hcount : s.count.toNat ≠ 0 := fun hzero => hne ((isEmpty_iff s).mp ((emptyAt_iff_countAt _ _).mpr hzero))
  rw [sub_self]
  exact Nat.pos_of_ne_zero hcount

/-- A read in progress has its byte in the buffer, or a lap has written every slot. -/
theorem BlockInv.tail_written_of_reading {s : Block aw} (h : BlockInv s) (hp : s.cphase ≠ .idle) :
    s.written s.tail.toNat := by
  cases hovf : s.ovf with
  | true => exact h.lapWritten hovf s.tail.toNat (index_lt s.tail)
  | false => exact h.tail_written_of_nonempty (h.pending hp hovf)

/-- Settles O46: POP.R reads in progress, POP with a byte to read. -/
theorem consumerReadsOnlyWrittenSlots : Obligations.ConsumerReadsOnlyWrittenSlots :=
  fun _ h => ⟨fun hp => h.tail_written_of_reading (by simp [hp]), fun _ hne => h.tail_written_of_nonempty hne⟩

/-- Settles O45: the cleared block at `AW = 8`. -/
theorem invariantHoldsAtReset : Obligations.InvariantHoldsAtReset := blockInv_reset Config.AW

end Sys2Proof.Machine
end

section
/-! SUPPORT. A step is an operation of the block, so it keeps what every operation keeps (00_scope.md R15, R16). -/

namespace Sys2Proof.Machine

/-- A step that has a next state performs an operation: the next token's, or NOP at the schedule's end (30_encoding.md R81). -/
theorem exists_execAt_of_step {s t : State} (h : step s = .next t) : ∃ i, execAt i s.toBlock = .next t.toBlock := by
  cases hs : s.schedule with
  | nil =>
    have hnop : step s = exec .nop s := by rw [step, fetch, hs]
    exact ⟨.nop, (exec_next_iff.mp (hnop.symm.trans h)).1⟩
  | cons tok rest =>
    rw [step_of_schedule hs] at h
    have htok : tokenAt tok s.toBlock = .next t.toBlock := (onBlock_next_iff.mp h).1
    cases hd : decode tok with
    | ok i => exact ⟨i, (tokenAt_of_decode hd _).symm.trans htok⟩
    | error e => cases (tokenAt_of_reserved hd _).symm.trans htok

/-- Settles O43: a step is an operation of the block, and every operation of the block keeps the invariant
(`BlockInv.execAt`). -/
theorem everyStepKeepsTheInvariant : Obligations.EveryStepKeepsTheInvariant := by
  refine ⟨fun s t h ht => ?_, fun i s t h ht => h.execAt (exec_next_iff.mp ht).1⟩
  obtain ⟨i, hi⟩ := exists_execAt_of_step ht
  exact h.execAt hi

end Sys2Proof.Machine
end

section
/-! SUPPORT. What a row of pushes does to the slot at `tail`: without an overrun nothing, and the push after an overrun writes
it (20_memory.md R66). -/

namespace Sys2Proof.Machine

variable {aw : Nat} {s : Block aw}

/-! ### One push -/

theorem count_pos_of_nonempty (hne : s.head ≠ s.tail) : 0 < s.count.toNat := by
  refine Nat.pos_of_ne_zero (fun hzero => hne ?_)
  exact (emptyAt_iff _ _).mp ((emptyAt_iff_countAt _ _).mpr hzero)

/-- A push that does not find FULL adds one to COUNT, as it takes one from FREE. -/
theorem count_pushByte (b : Byte) (hfull : s.isFull = false) : (pushByte b s).count.toNat = s.count.toNat + 1 := by
  have hfree := free_pushByte b hfull
  rw [free_toNat, free_toNat] at hfree
  have hle := count_le_mask (pushByte b s)
  omega

/-- A push that does not find FULL leaves a byte to read. -/
theorem pushByte_nonempty (b : Byte) (hfull : s.isFull = false) : (pushByte b s).head ≠ (pushByte b s).tail := by
  rw [pushByte_head, pushByte_tail]
  exact (isFull_eq_false_iff s).mp hfull

/-- A push writes slot `head`, so it keeps slot `tail` while there is a byte to read. -/
theorem memRead_pushByte_tail (b : Byte) (hne : s.head ≠ s.tail) :
    memRead (pushByte b s).mem s.tail.toNat = memRead s.mem s.tail.toNat := by
  rw [pushByte_mem]
  exact memRead_memWrite_other s.mem b (fun h => hne (BitVec.eq_of_toNat_eq h.symm))

/-- A push that finds FULL moves `head` onto `tail` (40_producer.md R114). -/
theorem pushByte_head_of_full (b : Byte) (hfull : s.isFull = true) : (pushByte b s).head = s.tail := by
  rw [pushByte_head]
  exact (isFull_iff s).mp hfull

/-! ### A row of pushes -/

theorem noneFindsFull_cons_iff (b : Byte) (bs : List Byte) :
    noneFindsFull (b :: bs) s = true ↔ s.isFull = false ∧ noneFindsFull bs (pushByte b s) = true := by
  rw [noneFindsFull, Bool.and_eq_true, Bool.not_eq_true']

theorem count_pushBytes {bs : List Byte} (hsilent : noneFindsFull bs s = true) :
    (pushBytes bs s).count.toNat = s.count.toNat + bs.length := by
  induction bs generalizing s with
  | nil => rfl
  | cons b bs ih =>
    obtain ⟨hfull, hrest⟩ := (noneFindsFull_cons_iff b bs).mp hsilent
    rw [pushBytes_cons, ih hrest, count_pushByte b hfull, List.length_cons, Nat.add_assoc, Nat.add_comm 1]

/-- While there is a byte to read and none finds FULL, pushes keep slot `tail`: each leaves a byte to read for the next. -/
theorem memRead_pushBytes_tail {bs : List Byte} (hne : s.head ≠ s.tail) (hsilent : noneFindsFull bs s = true) :
    memRead (pushBytes bs s).mem s.tail.toNat = memRead s.mem s.tail.toNat := by
  induction bs generalizing s with
  | nil => rfl
  | cons b bs ih =>
    obtain ⟨hfull, hrest⟩ := (noneFindsFull_cons_iff b bs).mp hsilent
    have hkept := ih (pushByte_nonempty b hfull) hrest
    rw [pushByte_tail] at hkept
    exact hkept.trans (memRead_pushByte_tail b hne)

/-! ### This hardware -/

theorem exec_push_of_reset (b : Byte) {s : State} (hr : s.hadReset = true) :
    exec (.push b) s = .next { s with toBlock := pushByte b s.toBlock } :=
  exec_next_iff.mpr ⟨execAt_push_of_reset b hr, rfl⟩

theorem runOps_pushOps (bs : List Byte) {s : State} (hr : s.hadReset = true) :
    runOps (pushOps bs) s = .next { s with toBlock := pushBytes bs s.toBlock } :=
  runOps_next_iff.mpr ⟨runOpsAt_pushOps bs hr, rfl⟩

/-- Settles O53: silent pushes keep slot `tail` and add to COUNT; after the push that finds FULL, slot `head` is slot `tail`. -/
theorem pushesWithoutOverrunKeepTheSampledSlot : Obligations.PushesWithoutOverrunKeepTheSampledSlot := by
  refine ⟨fun bs s hr hne hsilent => ?_, fun b1 b2 s hr hfull => ?_⟩
  · have hcount := count_pushBytes hsilent
    refine ⟨_, runOps_pushOps bs hr, memRead_pushBytes_tail hne hsilent, pushBytes_tail bs s.toBlock, ?_, hcount⟩
    calc 1 ≤ s.count.toNat := count_pos_of_nonempty hne
      _ ≤ s.count.toNat + bs.length := Nat.le_add_right _ _
      _ = (pushBytes bs s.toBlock).count.toNat := hcount.symm
  · have hhead := pushByte_head_of_full b1 hfull
    refine ⟨_, _, exec_push_of_reset b1 hr, hhead, exec_push_of_reset b2 ?_, ?_⟩
    · rw [pushByte_hadReset, hr]
    · rw [pushByte_mem, hhead, memRead_memWrite_same]

end Sys2Proof.Machine
end

section
/-! SUPPORT. Tokens and their fields, the rows of the opcode map, and decoding as the inverse of encoding
(30_encoding.md R83 to R88, R93). -/

namespace Sys2Proof

/-! ### The fields of a token (30_encoding.md R83) -/

theorem tokenOp_toNat (t : Token) : (tokenOp t).toNat = t.toNat / 256 := by
  rw [tokenOp, BitVec.extractLsb'_toNat, Nat.shiftRight_eq_div_pow]
  exact Nat.mod_eq_of_lt (Nat.div_lt_of_lt_mul t.isLt)

theorem tokenImm8_toNat (t : Token) : (tokenImm8 t).toNat = t.toNat % 256 := by
  rw [tokenImm8, BitVec.extractLsb'_toNat, Nat.shiftRight_zero]
  rfl

theorem makeToken_toNat (op : BitVec 4) (imm8 : Byte) : (makeToken op imm8).toNat = 256 * op.toNat + imm8.toNat := by
  rw [makeToken, BitVec.toNat_append, ← Nat.shiftLeft_add_eq_or_of_lt imm8.isLt, Nat.shiftLeft_eq, Nat.mul_comm]
  rfl

@[simp] theorem tokenOp_makeToken (op : BitVec 4) (imm8 : Byte) : tokenOp (makeToken op imm8) = op := by
  have hlow : imm8.toNat < 256 := imm8.isLt
  refine BitVec.eq_of_toNat_eq ?_
  rw [tokenOp_toNat, makeToken_toNat]
  omega

@[simp] theorem tokenImm8_makeToken (op : BitVec 4) (imm8 : Byte) : tokenImm8 (makeToken op imm8) = imm8 := by
  refine BitVec.eq_of_toNat_eq ?_
  rw [tokenImm8_toNat, makeToken_toNat, Nat.mul_add_mod]
  exact Nat.mod_eq_of_lt imm8.isLt

@[simp] theorem makeToken_fields (t : Token) : makeToken (tokenOp t) (tokenImm8 t) = t := by
  refine BitVec.eq_of_toNat_eq ?_
  rw [makeToken_toNat, tokenOp_toNat, tokenImm8_toNat, Nat.div_add_mod]

/-! ### The rows of the opcode map (30_encoding.md R85) -/

/-- A row with a full mask selects its own word alone. -/
theorem selects_full_mask_iff (word t : Token) (instr : Byte → Instr) :
    (OpcodeRow.mk word 0xFFF instr).selects t = true ↔ t = word := by
  rw [OpcodeRow.selects, beq_iff_eq, show (0xFFF : Token) = BitVec.allOnes 12 from rfl, BitVec.and_allOnes]

theorem and_op_mask (t : Token) : t &&& 0xF00 = makeToken (tokenOp t) 0 := by
  have hmask : (0xF00 : Token) = BitVec.allOnes 4 ++ 0#8 := rfl
  calc t &&& 0xF00 = makeToken (tokenOp t) (tokenImm8 t) &&& 0xF00 := by rw [makeToken_fields]
    _ = makeToken (tokenOp t) 0 := by
      rw [hmask, makeToken, BitVec.and_append, BitVec.and_allOnes, BitVec.and_zero]
      rfl

/-- A row with the mask of the `op` field selects the words of its `op`, whatever their `imm8`. -/
theorem selects_op_mask_iff (op : BitVec 4) (t : Token) (instr : Byte → Instr) :
    (OpcodeRow.mk (makeToken op 0) 0xF00 instr).selects t = true ↔ tokenOp t = op := by
  rw [OpcodeRow.selects, beq_iff_eq, and_op_mask]
  exact ⟨fun h => by simpa using congrArg tokenOp h, fun h => by rw [h]⟩

/-- The operation that a row reads from a token it selects has that token. -/
theorem encode_of_selects {r : OpcodeRow} {t : Token} (hr : r ∈ opcodeRows) (ht : r.selects t = true) :
    encode (r.instr (tokenImm8 t)) = some t := by
  simp only [opcodeRows, List.mem_cons, List.not_mem_nil, or_false] at hr
  obtain rfl | rfl | rfl | rfl | rfl | rfl | rfl := hr
  case inr.inl =>
    have hop : tokenOp t = 1 := (selects_op_mask_iff 1 t _).mp ht
    show some (makeToken 1 (tokenImm8 t)) = some t
    rw [← hop, makeToken_fields]
  all_goals
    rw [(selects_full_mask_iff _ t _).mp ht]
    rfl

/-! ### Decoding is the inverse of encoding -/

theorem encode_of_decode {t : Token} {i : Instr} (h : decode t = .ok i) : encode i = some t := by
  unfold decode at h
  split at h
  next r hr =>
    rw [← Except.ok.inj h]
    exact encode_of_selects (List.mem_of_find?_eq_some hr) (List.find?_some (p := fun r : OpcodeRow => r.selects t) hr)
  next => split at h <;> cases h

theorem Laws.Encoding.all (i : Instr) : Laws.Encoding.Statement i := by
  cases i with
  | nop => exact nop
  | push imm8 => exact push imm8
  | popS => exact popS
  | popR => exact popR
  | popA => exact popA
  | pop => exact pop
  | reset => exact reset
  | drain gaps => exact drain gaps
  | drainF gaps => exact drainF gaps
  | pushS text => exact pushS text
  | pushN n f => exact pushN n f

theorem decode_of_encode {t : Token} {i : Instr} (h : encode i = some t) : decode t = .ok i := by
  have hi := Laws.Encoding.all i
  rw [Laws.Encoding.Statement, h] at hi
  exact hi.1

/-- Settles O5: the row that a token selects reads an operation with that token, and each operation's token selects its row. -/
theorem decodeAndEncodeAgree : Obligations.DecodeAndEncodeAgree :=
  fun _ _ => ⟨encode_of_decode, decode_of_encode⟩

/-! ### Reserved tokens (30_encoding.md R87) -/

theorem decode_of_not_ok {t : Token} (h : ∀ i, decode t ≠ .ok i) :
    decode t = .error (if 6 ≤ (tokenOp t).toNat ∧ (tokenOp t).toNat ≤ 14 then .reservedOp t else .reservedImm8 t) := by
  unfold decode at h ⊢
  split
  next r hr => exact absurd (by rw [hr]) (h (r.instr (tokenImm8 t)))
  next => split <;> rfl

/-- The decoder is total. -/
theorem decode_cases (t : Token) :
    (∃ i, decode t = .ok i) ∨ decode t = .error (.reservedOp t) ∨ decode t = .error (.reservedImm8 t) := by
  by_cases h : ∃ i, decode t = .ok i
  · exact .inl h
  · rw [decode_of_not_ok (fun i hi => h ⟨i, hi⟩)]
    split
    · exact .inr (.inl rfl)
    · exact .inr (.inr rfl)

/-- A token with an operation is PUSH's, or has `imm8` 0 and no reserved `op`. -/
theorem fields_of_decode {t : Token} {i : Instr} (h : decode t = .ok i) :
    tokenOp t = 1 ∨ tokenImm8 t = 0 ∧ ¬ (6 ≤ (tokenOp t).toNat ∧ (tokenOp t).toNat ≤ 14) := by
  have ht := encode_of_decode h
  cases i with
  | push imm8 => cases ht; exact .inl (tokenOp_makeToken 1 imm8)
  | nop | popS | popR | popA | pop | reset => cases ht; exact .inr (by decide)
  | drain | drainF | pushS | pushN => cases ht

theorem decode_of_reserved {t : Token} (hpush : tokenOp t ≠ 1)
    (h : 6 ≤ (tokenOp t).toNat ∧ (tokenOp t).toNat ≤ 14 ∨ tokenImm8 t ≠ 0) :
    decode t = .error (if 6 ≤ (tokenOp t).toNat ∧ (tokenOp t).toNat ≤ 14 then .reservedOp t else .reservedImm8 t) := by
  refine decode_of_not_ok (fun i hi => ?_)
  obtain hop | ⟨himm8, hop⟩ := fields_of_decode hi
  · exact hpush hop
  · exact h.elim hop (fun hne => hne himm8)

/-- Settles O6: ten closed words, by evaluating the decoder. -/
theorem wordsOfTheOpcodeMapDecode : Obligations.WordsOfTheOpcodeMapDecode := by
  unfold Obligations.WordsOfTheOpcodeMapDecode
  decide

end Sys2Proof
end

section
/-! SUPPORT. How many of the 4096 tokens decode to what (30_encoding.md R87): the tokens of an `op` with a non-zero `imm8` decode
alike, so two tokens of each `op` decide the counts. -/

namespace Sys2Proof

/-! ### Counting in blocks -/

theorem countP_const {α : Type} (b : Bool) (l : List α) : l.countP (fun _ => b) = l.length * b.toNat := by
  cases b with
  | false => rw [List.countP_false]; rfl
  | true => rw [List.countP_true, Bool.toNat_true, Nat.mul_one]

theorem countP_range_mul (q : Nat → Bool) (m n : Nat) :
    (List.range (m * n)).countP q = ((List.range n).map (fun o => (List.range m).countP (fun k => q (m * o + k)))).sum := by
  induction n with
  | zero => rfl
  | succ n ih =>
    rw [Nat.mul_succ, List.range_add, List.countP_append, ih, List.countP_map, List.range_succ, List.map_append,
      List.sum_append]
    simp [Function.comp_def]

theorem ofNat_eq_makeToken (op : Nat) {imm8 : Nat} (himm8 : imm8 < 256) :
    BitVec.ofNat 12 (256 * op + imm8) = makeToken (BitVec.ofNat 4 op) (BitVec.ofNat 8 imm8) := by
  refine BitVec.eq_of_toNat_eq ?_
  have hlow : (BitVec.ofNat 8 imm8).toNat = imm8 := Nat.mod_eq_of_lt himm8
  rw [makeToken_toNat, hlow, BitVec.toNat_ofNat, BitVec.toNat_ofNat]
  omega

/-! ### Properties of the kind of an answer -/

/-- A property of the decoder's answer that looks neither at the byte of a PUSH nor at the token of a refusal. -/
structure KindOnly (p : Except DecodeError Instr → Bool) : Prop where
  push : ∀ imm8, p (.ok (.push imm8)) = p (.ok (.push 1))
  reservedOp : ∀ t, p (.error (.reservedOp t)) = p (.error (.reservedOp 0))
  reservedImm8 : ∀ t, p (.error (.reservedImm8 t)) = p (.error (.reservedImm8 0))

/-- How many tokens of an `op` have the property: the one with `imm8` 0, and the 255 others alike. -/
def opCount (p : Except DecodeError Instr → Bool) (op : Nat) : Nat :=
  (p (decode (makeToken (BitVec.ofNat 4 op) 0))).toNat + 255 * (p (decode (makeToken (BitVec.ofNat 4 op) 1))).toNat

section KindOnly

variable {p : Except DecodeError Instr → Bool}

/-- All tokens of an `op` with a non-zero `imm8` decode alike. -/
theorem KindOnly.decode_eq (hp : KindOnly p) (op : BitVec 4) {imm8 : Byte} (h : imm8 ≠ 0) :
    p (decode (makeToken op imm8)) = p (decode (makeToken op 1)) := by
  by_cases hop : op = 1
  · rw [hop, decode_makeToken_push, decode_makeToken_push]
    exact hp.push imm8
  · have hdecode {b : Byte} (hb : b ≠ 0) := decode_of_reserved (t := makeToken op b) (by simpa) (.inr (by simpa))
    rw [hdecode h, hdecode (by decide), tokenOp_makeToken, tokenOp_makeToken]
    split
    · exact (hp.reservedOp _).trans (hp.reservedOp _).symm
    · exact (hp.reservedImm8 _).trans (hp.reservedImm8 _).symm

theorem KindOnly.countP_op (hp : KindOnly p) (op : Nat) :
    (List.range 256).countP (fun k => p (decode (BitVec.ofNat 12 (256 * op + k)))) = opCount p op := by
  have hzero : BitVec.ofNat 12 (256 * op + 0) = makeToken (BitVec.ofNat 4 op) 0 := ofNat_eq_makeToken op (by decide)
  have hrest : ∀ k ∈ List.range 255, p (decode (BitVec.ofNat 12 (256 * op + k.succ))) =
      p (decode (makeToken (BitVec.ofNat 4 op) 1)) := by
    intro k hk
    have hlt : k.succ < 256 := Nat.succ_lt_succ (List.mem_range.mp hk)
    have hne : BitVec.ofNat 8 k.succ ≠ 0 := fun h =>
      k.succ_ne_zero ((Nat.mod_eq_of_lt hlt).symm.trans (congrArg BitVec.toNat h))
    rw [ofNat_eq_makeToken op hlt]
    exact hp.decode_eq _ hne
  rw [List.range_succ_eq_map, List.countP_cons, List.countP_map, hzero,
    List.countP_congr (q := fun _ => p (decode (makeToken (BitVec.ofNat 4 op) 1))) (by simpa using hrest), countP_const,
    List.length_range, Nat.add_comm, opCount]
  simp only [Bool.toNat, Bool.cond_eq_ite]

theorem KindOnly.countP_tokens (hp : KindOnly p) :
    ((List.range 4096).map (BitVec.ofNat 12)).countP (fun t => p (decode t)) = ((List.range 16).map (opCount p)).sum := by
  rw [List.countP_map, show 4096 = 256 * 16 from rfl, countP_range_mul]
  exact congrArg List.sum (List.map_congr_left (fun op _ => hp.countP_op op))

end KindOnly

/-- Settles O4: `decode_cases`, and ten counts of one kind each, decided on two tokens of each `op`. -/
theorem tokenCountsOfTheOpcodeMap : Obligations.TokenCountsOfTheOpcodeMap := by
  unfold Obligations.TokenCountsOfTheOpcodeMap
  intro tokens ofKind ofOperation
  have hcount {p : Except DecodeError Instr → Bool} {n : Nat} (hp : KindOnly p)
      (hn : ((List.range 16).map (opCount p)).sum = n) : ofKind p = n := hp.countP_tokens.trans hn
  clear_value ofKind
  refine ⟨decode_cases, ?_, ?_, ?_, ?_, ?_, ?_, ?_, ?_, ?_, ?_⟩ <;>
    exact hcount ⟨fun _ => rfl, fun _ => rfl, fun _ => rfl⟩ (by decide)

end Sys2Proof
end

section
/-! SUPPORT. The storage form of a token (30_encoding.md R83). -/

namespace Sys2Proof

theorem storeToken_eq (t : Token) : storeToken t = [tokenImm8 t, (tokenOp t).setWidth 8] := rfl

theorem setWidth_op_toNat (op : BitVec 4) : (op.setWidth 8).toNat = op.toNat :=
  BitVec.toNat_setWidth_of_le (by decide)

/-- A high byte that holds an `op` alone is read back with its low byte. -/
theorem loadToken_setWidth_op (op : BitVec 4) (low : Byte) : loadToken low (op.setWidth 8) = .ok (makeToken op low) := by
  have hpadding : (op.setWidth 8).extractLsb' 4 4 = 0 := by
    refine BitVec.eq_of_toNat_eq ?_
    rw [BitVec.extractLsb'_toNat, setWidth_op_toNat, Nat.shiftRight_eq_div_pow, Nat.div_eq_of_lt op.isLt]
    rfl
  have hop : (op.setWidth 8).extractLsb' 0 4 = op := by
    refine BitVec.eq_of_toNat_eq ?_
    rw [BitVec.extractLsb'_toNat, setWidth_op_toNat, Nat.shiftRight_zero, Nat.mod_eq_of_lt op.isLt]
  rw [loadToken, if_pos hpadding, hop]
  rfl

theorem loadToken_of_padding {low high : Byte} (h : 16 ≤ high.toNat) : loadToken low high = .error .storagePadding := by
  refine if_neg (fun hpadding => ?_)
  have hzero : high.toNat / 16 % 16 = 0 := by
    simpa [BitVec.extractLsb'_toNat, Nat.shiftRight_eq_div_pow] using congrArg BitVec.toNat hpadding
  have hlt : high.toNat < 256 := high.isLt
  omega

/-- Settles O7: the stored bytes are the fields, which load back to the token; a padding bit stops the load. -/
theorem storedTokenIsReadBack : Obligations.StoredTokenIsReadBack := by
  refine ⟨fun t i rest hi => ?_, fun t => ?_, fun low high rest h => ?_⟩
  · have hload := loadToken_setWidth_op (tokenOp t) (tokenImm8 t)
    rw [makeToken_fields] at hload
    simp only [storeToken_eq, List.cons_append, List.nil_append, decodeBytes, hload, hi]
  · simp only [storeToken_eq, List.map_cons, List.map_nil, setWidth_op_toNat, tokenOp_toNat, tokenImm8_toNat]
  · simp only [decodeBytes, loadToken_of_padding h]

end Sys2Proof
end

section
/-! SUPPORT. Operations and steps of this hardware: what a step answers at the schedule's end and on a reserved token, and the
phases of the tokens (30_encoding.md R81, R88, R91). -/

namespace Sys2Proof.Machine

theorem exec_of_next {i : Instr} {s : State} {b : Block Config.AW} (h : execAt i s.toBlock = .next b) :
    exec i s = .next { s with toBlock := b } :=
  exec_next_iff.mpr ⟨h, rfl⟩

theorem exec_nop_of_reset {s : State} (hr : s.hadReset = true) : exec .nop s = .next s :=
  exec_of_next (perform_of_admitted hr rfl)

/-! ### Steps -/

theorem step_of_schedule_nil {s : State} (h : s.schedule = []) : step s = exec .nop s := by
  rw [step, fetch, h]

theorem step_of_reserved {s : State} {t : Token} {rest : List Token} {e : DecodeError} (hs : s.schedule = t :: rest)
    (h : decode t = .error e) : step s = .refused (.reservedToken t) := by
  rw [step_of_schedule hs]
  exact onBlock_refused_iff.mpr (tokenAt_of_reserved h _)

/-- Settles O2: the step is NOP, which answers the same state. -/
theorem stepAtTheScheduleEndChangesNothing : Obligations.StepAtTheScheduleEndChangesNothing :=
  fun _ hs hr => (step_of_schedule_nil hs).trans (exec_nop_of_reset hr)

/-- Settles O3: the numbers are the token's fields, which no operation's token has; NOP is not refused. -/
theorem reservedTokenIsRefused : Obligations.ReservedTokenIsRefused := by
  intro s t rest hs hreserved
  rw [← tokenOp_toNat, ← tokenImm8_toNat] at hreserved
  have hop : (tokenOp t).toNat ≠ 1 := by omega
  have hdecode := decode_of_reserved (fun h => hop (congrArg BitVec.toNat h))
    (hreserved.imp_right (fun h himm8 => h.2 (congrArg BitVec.toNat himm8)))
  have hstep := step_of_reserved hs hdecode
  refine ⟨⟨_, hstep⟩, fun hr => ⟨hstep, ?_⟩⟩
  have hnop : exec .nop { s with schedule := rest } = .next { s with schedule := rest } := exec_nop_of_reset hr
  rw [hstep, hnop]
  exact nofun

/-! ### Phases (30_encoding.md R91) -/

theorem exec_out_of_phase {i : Instr} {s : State} {p : Phase} {effect : Block Config.AW → Block Config.AW}
    (hi : execAt i s.toBlock = perform (onlyIn p) effect s.toBlock) (hr : s.hadReset = true) (hp : s.cphase ≠ p) :
    exec i s = .refused .consumerPhase :=
  exec_refused_iff.mpr (hi.trans (perform_out_of_phase hr ((onlyIn_false_iff _ _).mpr hp)))

/-- Settles O12: each consumer token's guard, out of its phase and in it; NOP, RESET and PUSH have no phase. -/
theorem consumerTokensKeepTheirPhase : Obligations.ConsumerTokensKeepTheirPhase := by
  intro s hr
  exact
    ⟨fun hp => ⟨exec_out_of_phase (execAt_popS _) hr hp, exec_out_of_phase (execAt_pop _) hr hp⟩,
      exec_out_of_phase (execAt_popR _) hr,
      exec_out_of_phase (execAt_popA _) hr,
      fun hp => ⟨⟨_, exec_of_next (execAt_popS_of_idle hr hp)⟩, ⟨_, exec_of_next (execAt_pop_of_idle hr hp)⟩⟩,
      fun hp => ⟨_, exec_of_next (execAt_popR_of_sampled hr hp)⟩,
      fun hp => ⟨_, exec_of_next (execAt_popA_of_read hr hp)⟩,
      ⟨s, exec_nop_of_reset hr⟩,
      ⟨_, exec_of_next (execAt_reset _)⟩,
      fun b => ⟨_, exec_push_of_reset b hr⟩⟩

end Sys2Proof.Machine
end

section
/-! SUPPORT. PUSH.S and PUSH.N as rows of PUSH, and the examples of the text form (30_encoding.md R92, R95, R96). -/

namespace Sys2Proof.Machine

/-- Settles O24: both are `pushBytes` of the text. -/
theorem pushTextRunsItsExpansion : Obligations.PushTextRunsItsExpansion := by
  intro text s hr
  refine ⟨_, exec_of_next ?_, runOps_pushOps text hr⟩
  rw [execAt_pushS]
  exact perform_of_admitted hr rfl

theorem lowByte_eq (v : Int) : lowByte v = BitVec.ofNat 8 (v % 256).toNat := by
  have hlt : (v % 256).toNat < 256 := by omega
  refine BitVec.eq_of_toNat_eq ?_
  rw [lowByte, BitVec.toNat_ofInt]
  exact (Nat.mod_eq_of_lt hlt).symm

/-- The bytes of a well-formed PUSH.N, by their numbers. -/
theorem seriesBytes_eq {n : Nat} {f : List Int} (h : f.length = n) :
    seriesBytes n f = (List.range n).map (fun i => BitVec.ofNat 8 ((f.getD i 0) % 256).toNat) := by
  subst h
  refine List.ext_getElem (by simp [seriesBytes]) (fun i hi _ => ?_)
  have hlt : i < f.length := by simpa [seriesBytes] using hi
  simp [seriesBytes, lowByte_eq, hlt]

/-- Settles O25: both are `pushBytes` of the series. -/
theorem pushSeriesRunsItsExpansion : Obligations.PushSeriesRunsItsExpansion := by
  intro n f s hwf hr
  have hrun := runOps_pushOps (seriesBytes n f) hr
  refine ⟨_, exec_of_next (perform_of_admitted hr rfl), ?_⟩
  rw [← hrun, seriesBytes_eq (beq_iff_eq.mp hwf), pushOps, List.map_map]
  rfl

/-- Settles O57: the closed examples, by evaluating the assembler. -/
theorem assemblerReadsTheExamples : Obligations.AssemblerReadsTheExamples := by
  unfold Obligations.AssemblerReadsTheExamples
  decide

end Sys2Proof.Machine
end

section
/-! SUPPORT. DRAIN and DRAIN.F as runs of their expansions, at every index width (30_encoding.md R93, R94). -/

namespace Sys2Proof.Machine

variable {aw : Nat}

/-! ### Deliveries -/

@[simp] theorem pushBytes_delivered (bs : List Byte) (s : Block aw) : (pushBytes bs s).delivered = s.delivered :=
  pushBytes_keeps (P := fun t => t.delivered = s.delivered) (fun b t h => (pushByte_delivered b t).trans h) bs rfl

@[simp] theorem samplePointers_delivered (s : Block aw) : (samplePointers s).delivered = s.delivered := rfl

@[simp] theorem latchSlot_delivered (s : Block aw) : (latchSlot s).delivered = s.delivered := rfl

theorem popByte_delivered_length {s : Block aw} (h : s.head ≠ s.tail) :
    (popByte s).delivered.length = s.delivered.length + 1 := by
  rw [popByte_eq_split h]
  simp

@[simp] theorem drainRound_delivered_length (gaps : List (List Byte)) (s : Block aw) :
    (drainRound gaps s).delivered.length = s.delivered.length + 1 := by
  simp [drainRound]

/-! ### One round -/

@[simp] theorem drainRound_cphase (gaps : List (List Byte)) (s : Block aw) : (drainRound gaps s).cphase = .idle := by
  simp [drainRound]

@[simp] theorem drainRound_hadReset (gaps : List (List Byte)) (s : Block aw) :
    (drainRound gaps s).hadReset = s.hadReset := by
  simp [drainRound]

theorem samplePointers_sampled {s : Block aw} (h : s.head ≠ s.tail) : (samplePointers s).cphase = .sampled := by
  rw [samplePointers_of_nonempty h]

theorem runOpsAt_singleton {i : Instr} {s t : Block aw} (h : execAt i s = .next t) : runOpsAt [i] s = .next t := by
  rw [runOpsAt_cons_of_next h, runOpsAt_nil]

/-- A token of an expansion with the PUSH tokens of its gap. -/
theorem runOpsAt_token_gap {i : Instr} {s t : Block aw} (h : execAt i s = .next t) (hr : t.hadReset = true)
    (bs : List Byte) (is : List Instr) : runOpsAt ([i] ++ (pushOps bs ++ is)) s = runOpsAt is (pushBytes bs t) := by
  rw [runOpsAt_append_of_next (runOpsAt_singleton h), runOpsAt_append_of_next (runOpsAt_pushOps bs hr)]

/-- The tokens of a round of DRAIN are a POP.S that finds a byte and the round of the loop. -/
theorem runOpsAt_drainOps_succ (k : Nat) (gaps : List (List Byte)) {s : Block aw} (hr : s.hadReset = true)
    (hp : s.cphase = .idle) (h : s.head ≠ s.tail) :
    runOpsAt (drainOps (k + 1) gaps) s = runOpsAt (drainOps k (gaps.drop 3)) (drainRound gaps (samplePointers s)) := by
  have hlatch := execAt_popR_of_sampled (s := pushBytes (gapBytes gaps 0) (samplePointers s)) (by simpa using hr)
    (by simpa using samplePointers_sampled h)
  have hdeliver := execAt_popA_of_read
    (s := pushBytes (gapBytes gaps 1) (latchSlot (pushBytes (gapBytes gaps 0) (samplePointers s)))) (by simpa using hr)
    (by simp)
  simp only [drainOps, List.append_assoc]
  rw [runOpsAt_token_gap (execAt_popS_of_idle hr hp) hr, runOpsAt_token_gap hlatch (by simpa using hr),
    runOpsAt_token_gap hdeliver (by simpa using hr)]
  rfl

theorem runOpsAt_drainFOps_succ (k : Nat) (gaps : List (List Byte)) {s : Block aw} (hr : s.hadReset = true)
    (hp : s.cphase = .idle) :
    runOpsAt (drainFOps (k + 1) gaps) s = runOpsAt (drainFOps k (gaps.drop 1)) (pushBytes (gapBytes gaps 0) (popByte s)) := by
  simp only [drainFOps, List.append_assoc]
  exact runOpsAt_token_gap (execAt_pop_of_idle hr hp) (by simpa using hr) _ _

/-! ### The loops -/

/-- The loop of DRAIN runs an expansion, with one round for each byte it delivers. -/
theorem drainLoop_runs (budget : Nat) (gaps : List (List Byte)) {s t : Block aw} (hr : s.hadReset = true)
    (hp : s.cphase = .idle) (ht : drainLoop budget gaps s = some t) :
    ∃ k, runOpsAt (drainOps k gaps) s = .next t ∧ t.delivered.length = s.delivered.length + k := by
  induction budget generalizing gaps s with
  | zero => cases ht
  | succ budget ih =>
    rw [drainLoop] at ht
    split at ht
    next =>
      cases ht
      exact ⟨0, runOpsAt_singleton (execAt_popS_of_idle hr hp), rfl⟩
    next hphase =>
      have hne : s.head ≠ s.tail := mt (samplePointers_idle_iff s).mpr hphase
      obtain ⟨k, hrun, hlen⟩ := ih (gaps.drop 3) (by simpa using hr) (by simp) ht
      refine ⟨k + 1, (runOpsAt_drainOps_succ k gaps hr hp hne).trans hrun, ?_⟩
      rw [hlen, drainRound_delivered_length, samplePointers_delivered, Nat.add_assoc, Nat.add_comm 1]

/-- The loop of DRAIN.F runs an expansion, with one POP for each byte it delivers and one more. -/
theorem drainFLoop_runs (budget : Nat) (gaps : List (List Byte)) {s t : Block aw} (hr : s.hadReset = true)
    (hp : s.cphase = .idle) (ht : drainFLoop budget gaps s = some t) :
    ∃ k, runOpsAt (drainFOps k gaps) s = .next t ∧ t.delivered.length = s.delivered.length + k := by
  induction budget generalizing gaps s with
  | zero => cases ht
  | succ budget ih =>
    rw [drainFLoop] at ht
    split at ht
    next hempty =>
      cases ht
      refine ⟨0, runOpsAt_singleton (execAt_pop_of_idle hr hp), ?_⟩
      rw [popByte_eq_samplePointers ((isEmpty_iff s).mp hempty), samplePointers_delivered, Nat.add_zero]
    next hempty =>
      have hne : s.head ≠ s.tail := mt (isEmpty_iff s).mpr hempty
      obtain ⟨k, hrun, hlen⟩ := ih (gaps.drop 1) (by simpa using hr) (by simp) ht
      refine ⟨k + 1, (runOpsAt_drainFOps_succ k gaps hr hp).trans hrun, ?_⟩
      rw [hlen, pushBytes_delivered, popByte_delivered_length hne, Nat.add_assoc, Nat.add_comm 1]

/-! ### Nothing pushed meanwhile -/

/-- Without pushes in the gaps a round of DRAIN is a POP, so the two loops are one. -/
theorem drainLoop_eq_drainFLoop (budget : Nat) {gaps gaps' : List (List Byte)} (hg : ∀ g ∈ gaps, g = [])
    (hg' : ∀ g ∈ gaps', g = []) (s : Block aw) : drainLoop budget gaps s = drainFLoop budget gaps' s := by
  induction budget generalizing gaps gaps' s with
  | zero => rfl
  | succ budget ih =>
    rw [drainLoop, drainFLoop]
    by_cases he : s.head = s.tail
    · rw [if_pos ((samplePointers_idle_iff s).mpr he), if_pos ((isEmpty_iff s).mpr he), popByte_eq_samplePointers he]
    · have hround : drainRound gaps (samplePointers s) = pushBytes (gapBytes gaps' 0) (popByte s) := by
        simp only [drainRound, gapBytes_of_silent hg, gapBytes_of_silent hg', pushBytes_nil, popByte_eq_split he]
      rw [if_neg (mt (samplePointers_idle_iff s).mp he), if_neg (mt (isEmpty_iff s).mp he), hround]
      exact ih (fun g hmem => hg g (List.mem_of_mem_drop hmem)) (fun g hmem => hg' g (List.mem_of_mem_drop hmem)) _

/-- A POP that finds a byte takes one from COUNT. -/
theorem count_popByte {s : Block aw} (h : s.head ≠ s.tail) : (popByte s).count.toNat + 1 = s.count.toNat := by
  have hsucc : (popByte s).count + 1 = s.count := by
    rw [popByte_eq_split h, count_eq, count_eq, deliverLatch_tail]
    show s.head - (s.tail + 1) + 1 = s.head - s.tail
    rw [sub_add_eq_sub_sub, sub_add_cancel]
  have hne : s.count ≠ 0 := by
    rw [count_eq]
    exact sub_ne_zero.mpr h
  rw [← hsucc] at hne ⊢
  exact (index_succ_toNat hne).symm

/-- Without pushes in the gaps COUNT bytes are delivered: each POP moves one from COUNT to the deliveries. -/
theorem drainFLoop_delivered_length (budget : Nat) {gaps : List (List Byte)} (hg : ∀ g ∈ gaps, g = []) {s t : Block aw}
    (hp : s.cphase = .idle) (ht : drainFLoop budget gaps s = some t) :
    t.delivered.length = s.delivered.length + s.count.toNat := by
  have htotal : t.delivered.length + t.count.toNat = s.delivered.length + s.count.toNat := by
    refine drainFLoop_keeps_of_silent (P := fun u => u.delivered.length + u.count.toNat = s.delivered.length + s.count.toNat)
      (fun u _ hu => ?_) budget hg hp rfl ht
    by_cases he : u.head = u.tail
    · rw [popByte_eq_samplePointers he]
      exact hu
    · rw [← hu, popByte_delivered_length he, ← count_popByte he, Nat.add_assoc, Nat.add_comm 1]
  have hempty : t.count.toNat = 0 := by
    rw [count_eq, (drainFLoop_ends budget gaps ht).2, sub_self]
    rfl
  rw [← htotal, hempty, Nat.add_zero]

/-! ### This hardware -/

theorem runOps_of_next {is : List Instr} {s : State} {b : Block Config.AW} (h : runOpsAt is s.toBlock = .next b) :
    runOps is s = .next { s with toBlock := b } :=
  runOps_next_iff.mpr ⟨h, rfl⟩

theorem drained_iff (s : Block aw) : s.drained = true ↔ s.cphase = .idle ∧ s.head = s.tail := by
  rw [Block.drained, Block.quiescent, Bool.and_eq_true, beq_iff_eq, isEmpty_iff]

theorem exec_drain_of_loop {gaps : List (List Byte)} {s : State} {t : Block Config.AW} (hr : s.hadReset = true)
    (hp : s.cphase = .idle) (ht : drainLoop (drainBudget gaps s.toBlock) gaps s.toBlock = some t) :
    exec (.drain gaps) s = .next { s with toBlock := t } :=
  exec_of_next (performLoop_of_admitted hr ((onlyIn_iff _ _).mpr hp) ht)

theorem exec_drainF_of_loop {gaps : List (List Byte)} {s : State} {t : Block Config.AW} (hr : s.hadReset = true)
    (hp : s.cphase = .idle) (ht : drainFLoop (drainBudget gaps s.toBlock) gaps s.toBlock = some t) :
    exec (.drainF gaps) s = .next { s with toBlock := t } :=
  exec_of_next (performLoop_of_admitted hr ((onlyIn_iff _ _).mpr hp) ht)

/-- Settles O33: the loop ends within its budget (`drainBudget_suffices`), runs its expansion and ends drained. -/
theorem drainRunsItsExpansion : Obligations.DrainRunsItsExpansion := by
  intro gaps s hr hp
  obtain ⟨t, ht⟩ := Option.isSome_iff_exists.mp (drainBudget_suffices gaps s.toBlock)
  obtain ⟨k, hrun, hlen⟩ := drainLoop_runs _ gaps hr hp ht
  exact ⟨_, k, exec_drain_of_loop hr hp ht, runOps_of_next hrun, hlen, (drained_iff t).mpr (drainLoop_ends _ gaps ht)⟩

/-- Settles O34: as O33; with empty gaps the loop delivers COUNT bytes and is the loop of DRAIN. -/
theorem drainFusedRunsItsExpansion : Obligations.DrainFusedRunsItsExpansion := by
  intro gaps s hr hp
  obtain ⟨t, ht⟩ := Option.isSome_iff_exists.mp (drainFBudget_suffices gaps s.toBlock)
  obtain ⟨k, hrun, hlen⟩ := drainFLoop_runs _ gaps hr hp ht
  refine ⟨_, k, exec_drainF_of_loop hr hp ht, runOps_of_next hrun, hlen, (drained_iff t).mpr (drainFLoop_ends _ gaps ht),
    fun hg => ⟨?_, ?_⟩⟩
  · exact Nat.add_left_cancel (hlen.symm.trans (drainFLoop_delivered_length _ hg hp ht))
  · exact exec_drain_of_loop hr hp ((drainLoop_eq_drainFLoop _ hg hg s.toBlock).trans ht)

end Sys2Proof.Machine
end

section
/-! SUPPORT. The slots a PUSH writes, and the unread bytes after one PUSH and after a row of them (40_producer.md R110 to R115). -/

namespace Sys2Proof.Machine

variable {aw : Nat} {s : Block aw}

/-! ### The slots a PUSH writes -/

/-- The slots from `tail` on, less than COUNT of them, stop short of `head` (10_state.md R31). -/
theorem index_before_head {k : Nat} (hk : k < s.count.toNat) : s.tail + BitVec.ofNat aw k ≠ s.head := by
  intro heq
  have hcount : BitVec.ofNat aw k = BitVec.ofNat aw s.count.toNat :=
    add_left_cancel (heq.trans (count_spans s).symm)
  have hmod := congrArg BitVec.toNat hcount
  rw [BitVec.toNat_ofNat, BitVec.toNat_ofNat, Nat.mod_eq_of_lt (hk.trans s.count.isLt),
    Nat.mod_eq_of_lt s.count.isLt] at hmod
  exact hk.ne hmod

theorem loadSlot_pushByte_head (b : Byte) : loadSlot (pushByte b s) s.head = b := by
  rw [loadSlot, pushByte_mem, memRead_memWrite_same, Option.getD_some]

theorem loadSlot_pushByte_other (b : Byte) {i : Index aw} (h : i ≠ s.head) :
    loadSlot (pushByte b s) i = loadSlot s i := by
  rw [← loadSlot_storeSlot_other s b h]
  exact loadSlot_congr (s := storeSlot s s.head b) (pushByte_mem b s) (pushByte_resets b s) i

/-- A PUSH, full or not, leaves the bytes that were unread before it in their slots (40_producer.md R114). -/
theorem loadSlot_pushByte_unread (b : Byte) {k : Nat} (hk : k < s.count.toNat) :
    loadSlot (pushByte b s) (s.tail + BitVec.ofNat aw k) = loadSlot s (s.tail + BitVec.ofNat aw k) :=
  loadSlot_pushByte_other b (index_before_head hk)

/-! ### The unread bytes -/

theorem unread_length (s : Block aw) : s.unread.length = s.count.toNat := by
  rw [Block.unread, List.length_map, List.length_range]

theorem count_of_empty (h : s.head = s.tail) : s.count.toNat = 0 :=
  (emptyAt_iff_countAt s.head s.tail).mp ((isEmpty_iff s).mpr h)

theorem unread_of_empty (h : s.head = s.tail) : s.unread = [] := by
  rw [Block.unread, count_of_empty h]
  rfl

/-- A PUSH that does not find FULL puts its byte behind the unread ones. -/
theorem unread_pushByte (b : Byte) (hfull : s.isFull = false) : (pushByte b s).unread = s.unread ++ [b] := by
  rw [Block.unread, count_pushByte b hfull, List.range_succ, List.map_append, List.map_singleton, pushByte_tail,
    count_spans, loadSlot_pushByte_head]
  congr 1
  exact List.map_congr_left (fun k hk => loadSlot_pushByte_unread b (List.mem_range.mp hk))

/-- A PUSH that finds FULL leaves a buffer that reads empty (40_producer.md R114). -/
theorem pushByte_empty_of_full (b : Byte) (hfull : s.isFull = true) : (pushByte b s).head = (pushByte b s).tail := by
  rw [pushByte_head_of_full b hfull, pushByte_tail]

/-! ### Rows of pushes -/

theorem unread_pushBytes {bs : List Byte} (hsilent : noneFindsFull bs s = true) :
    (pushBytes bs s).unread = s.unread ++ bs := by
  induction bs generalizing s with
  | nil => exact (List.append_nil _).symm
  | cons b bs ih =>
    obtain ⟨hfull, hrest⟩ := (noneFindsFull_cons_iff b bs).mp hsilent
    rw [pushBytes_cons, ih hrest, unread_pushByte b hfull, List.append_assoc, List.singleton_append]

/-- Pushes none of which finds FULL give no signal (40_producer.md R111). -/
theorem pushBytes_silent {bs : List Byte} (hsilent : noneFindsFull bs s = true) :
    (pushBytes bs s).trace = s.trace ∧ (pushBytes bs s).ovf = s.ovf := by
  induction bs generalizing s with
  | nil => exact ⟨rfl, rfl⟩
  | cons b bs ih =>
    obtain ⟨hfull, hrest⟩ := (noneFindsFull_cons_iff b bs).mp hsilent
    obtain ⟨htrace, hovf⟩ := ih hrest
    exact ⟨by simp [pushBytes_cons, htrace, hfull], by simp [pushBytes_cons, hovf, hfull]⟩

theorem noneFindsFull_of_empty {bs : List Byte} (h : s.head = s.tail) (hlen : bs.length < Config.depthOf aw) :
    noneFindsFull bs s = true := by
  rw [noneFindsFull_iff, free_toNat, count_of_empty h]
  exact Nat.le_pred_of_lt hlen

/-- A row of whole laps brings `head` back. -/
theorem pushBytes_head_of_dvd {bs : List Byte} (h : Config.depthOf aw ∣ bs.length) : (pushBytes bs s).head = s.head := by
  rw [index_eq_iff, pushBytes_head_toNat, Nat.add_mod, Nat.mod_eq_zero_of_dvd h, Nat.add_zero, Nat.mod_mod,
    Nat.mod_eq_of_lt (index_lt _)]

/-- Pushes in whole laps leave an empty buffer reading empty again, so only those after them are unread. -/
theorem unread_pushBytes_of_laps {lost last : List Byte} (h : s.head = s.tail) (hlost : Config.depthOf aw ∣ lost.length)
    (hlast : last.length < Config.depthOf aw) : (pushBytes (lost ++ last) s).unread = last := by
  have hempty : (pushBytes lost s).head = (pushBytes lost s).tail := by
    rw [pushBytes_head_of_dvd hlost, pushBytes_tail, h]
  rw [pushBytes_append, unread_pushBytes (noneFindsFull_of_empty hempty hlast), unread_of_empty hempty, List.nil_append]

/-- After pushes into a buffer that reads empty the last `P mod DEPTH` of them are unread (40_producer.md R115). -/
theorem unread_pushBytes_of_empty (bs : List Byte) (h : s.head = s.tail) :
    (pushBytes bs s).unread = bs.drop (bs.length - bs.length % Config.depthOf aw) := by
  have hunread := unread_pushBytes_of_laps (lost := bs.take (bs.length - bs.length % Config.depthOf aw))
    (last := bs.drop (bs.length - bs.length % Config.depthOf aw)) h ?lost ?last
  · rwa [List.take_append_drop] at hunread
  case lost =>
    rw [List.length_take_of_le (Nat.sub_le _ _)]
    exact Nat.dvd_sub_mod _
  case last =>
    rw [List.length_drop, Nat.sub_sub_self (Nat.mod_le _ _)]
    exact Nat.mod_lt _ (depthOf_pos aw)

theorem count_pushBytes_of_empty (bs : List Byte) (h : s.head = s.tail) :
    (pushBytes bs s).count.toNat = bs.length % Config.depthOf aw := by
  rw [← unread_length, unread_pushBytes_of_empty bs h, List.length_drop, Nat.sub_sub_self (Nat.mod_le _ _)]

end Sys2Proof.Machine
end

section
/-! SUPPORT. When OVERRUN fires: by COUNT, by the ghost counters, and how often in a row of pushes (40_producer.md R113). -/

namespace Sys2Proof.Machine

variable {aw : Nat} {s : Block aw}

/-- FULL is COUNT at MASK (40_producer.md R113). -/
theorem isFull_iff_count (s : Block aw) : s.isFull = true ↔ s.count.toNat = Config.maskOf aw :=
  fullAt_iff_countAt s.head s.tail

theorem overrunPulses_pushByte (b : Byte) (s : Block aw) :
    overrunPulses (pushByte b s) = overrunPulses s + s.isFull.toNat := by
  rw [overrunPulses, overrunPulses, pushByte_trace]
  cases s.isFull <;> simp

/-- Each push adds one to COUNT, or empties a COUNT of MASK and signals: a pulse stands for `DEPTH` bytes. -/
theorem pulses_and_count_pushByte (b : Byte) (s : Block aw) :
    Config.depthOf aw * overrunPulses (pushByte b s) + (pushByte b s).count.toNat =
      Config.depthOf aw * overrunPulses s + s.count.toNat + 1 := by
  rw [overrunPulses_pushByte]
  cases hfull : s.isFull with
  | false => rw [count_pushByte b hfull]; rfl
  | true =>
    have hempty : (pushByte b s).count.toNat = 0 := count_of_empty (pushByte_empty_of_full b hfull)
    have hmask : s.count.toNat + 1 = Config.depthOf aw := by
      rw [(isFull_iff_count s).mp hfull]
      exact Nat.sub_add_cancel (depthOf_pos aw)
    rw [hempty, Nat.add_assoc, hmask]
    rfl

theorem pulses_and_count_pushBytes (bs : List Byte) (s : Block aw) :
    Config.depthOf aw * overrunPulses (pushBytes bs s) + (pushBytes bs s).count.toNat =
      Config.depthOf aw * overrunPulses s + s.count.toNat + bs.length := by
  induction bs generalizing s with
  | nil => rfl
  | cons b bs ih => rw [pushBytes_cons, ih, pulses_and_count_pushByte, List.length_cons, Nat.add_assoc, Nat.add_comm 1]

/-- From an empty buffer without a pulse so far, a row of pushes signals once in each `DEPTH` (40_producer.md R113). -/
theorem overrunPulses_pushBytes (bs : List Byte) (hcount : s.count.toNat = 0) (hpulses : overrunPulses s = 0) :
    overrunPulses (pushBytes bs s) = bs.length / Config.depthOf aw := by
  have htotal := pulses_and_count_pushBytes bs s
  rw [hcount, hpulses, Nat.mul_zero, Nat.zero_add] at htotal
  rw [← htotal, Nat.mul_add_div (depthOf_pos aw), Nat.div_eq_of_lt (index_lt _), Nat.add_zero]

/-- COUNT in the ghost counters: `(P - C) mod DEPTH` (10_state.md R35, 40_producer.md R113). -/
theorem FifoInv.count {pushed : List Byte} (h : FifoInv pushed s) :
    s.count.toNat = (pushed.length - s.delivered.length) % Config.depthOf aw := by
  have hspan : (s.tail.toNat + s.count.toNat) % Config.depthOf aw = s.head.toNat := by
    rw [← index_add_toNat, count_spans]
  rw [h.head, h.tail, Nat.mod_add_mod] at hspan
  have hmod : s.delivered.length + s.count.toNat ≡
      s.delivered.length + (pushed.length - s.delivered.length) [MOD Config.depthOf aw] := by
    rw [Nat.add_sub_cancel' h.behind]
    exact hspan
  rw [← Nat.mod_eq_of_lt (index_lt s.count)]
  exact Nat.ModEq.add_left_cancel' _ hmod

end Sys2Proof.Machine
end

section
/-! SUPPORT. DRAIN with nothing pushed meanwhile delivers every unread byte (41_consumer.md R134). -/

namespace Sys2Proof.Machine

variable {aw : Nat} {s : Block aw}

/-! ### What is to be delivered -/

/-- The first unread byte is the one at `tail`; the others are those unread after a POP. -/
theorem unread_of_nonempty (h : s.head ≠ s.tail) : s.unread = loadSlot s s.tail :: (popByte s).unread := by
  rw [Block.unread, Block.unread, ← count_popByte h, List.range_succ_eq_map, List.map_cons, List.map_map]
  congr 1
  · simp
  · refine List.map_congr_left (fun k _ => ?_)
    have htail : (popByte s).tail = s.tail + BitVec.ofNat aw 1 := by
      rw [popByte_of_nonempty h]
      exact advance_eq s.tail
    rw [htail, index_add_add, Nat.add_comm]
    exact (loadSlot_congr (popByte_mem s) (popByte_resets s) _).symm

/-- The block with every unread byte delivered, oldest first. -/
def Block.emptied (s : Block aw) : Block aw :=
  { s with
    tail := s.head
    trace := s.trace ++ s.unread.map Event.deliver
    rdLatch := s.unread.getLast?.getD s.rdLatch }

@[simp] theorem emptied_trace (s : Block aw) : s.emptied.trace = s.trace ++ s.unread.map Event.deliver := rfl

theorem emptied_of_empty (h : s.head = s.tail) : s.emptied = s := by
  rw [Block.emptied, unread_of_empty h, List.map_nil, List.append_nil]
  exact congrArg (setTail s) h

/-- Comparing the pointers of an idle buffer that reads empty changes nothing (41_consumer.md R135). -/
theorem samplePointers_of_idle_empty (hp : s.cphase = .idle) (h : s.head = s.tail) : samplePointers s = s := by
  rw [samplePointers_of_empty h, ← hp]

/-- A POP delivers the first of the bytes that are to be delivered. -/
theorem emptied_popByte (hp : s.cphase = .idle) : (popByte s).emptied = s.emptied := by
  by_cases h : s.head = s.tail
  · rw [popByte_eq_samplePointers h, samplePointers_of_idle_empty hp h]
  · have hunread := unread_of_nonempty h
    rw [Block.emptied, Block.emptied, hunread, List.getLast?_cons, List.map_cons, Option.getD_some]
    generalize (popByte s).unread = later
    simp [popByte_of_nonempty h, hp]

/-- Each POP of the loop keeps what is delivered in all, and at the loop's end nothing is left. -/
theorem drainFLoop_eq_emptied {budget : Nat} {gaps : List (List Byte)} (hg : ∀ g ∈ gaps, g = []) {t : Block aw}
    (hp : s.cphase = .idle) (ht : drainFLoop budget gaps s = some t) : t = s.emptied := by
  have hkept : t.emptied = s.emptied :=
    drainFLoop_keeps_of_silent (P := fun u => u.emptied = s.emptied) (fun _ hu h => (emptied_popByte hu).trans h) budget hg hp
      rfl ht
  rw [← hkept, emptied_of_empty (drainFLoop_ends budget gaps ht).2]

theorem execAt_drain_of_silent {gaps : List (List Byte)} (hg : ∀ g ∈ gaps, g = []) (hr : s.hadReset = true)
    (hp : s.cphase = .idle) : execAt (.drain gaps) s = .next s.emptied := by
  obtain ⟨t, ht⟩ := Option.isSome_iff_exists.mp (drainBudget_suffices gaps s)
  have heq := drainFLoop_eq_emptied hg hp ((drainLoop_eq_drainFLoop _ hg hg s).symm.trans ht)
  exact performLoop_of_admitted hr ((onlyIn_iff _ _).mpr hp) (heq ▸ ht)

theorem emptied_delivered (s : Block aw) : s.emptied.delivered = s.delivered ++ s.unread := by
  simp [delivered_eq, List.filterMap_map]

theorem emptied_drained (hp : s.cphase = .idle) : s.emptied.drained = true := (drained_iff _).mpr ⟨hp, rfl⟩

end Sys2Proof.Machine
end

section
/-! SUPPORT. The statements of 40_producer.md on this hardware: PUSH, OVERRUN, and what the consumer sees after them. -/

namespace Sys2Proof.Machine

/-- Settles O19: PUSH at every width (`pushAtEveryWidth`), at `AW = 8`; the schedule stays. -/
theorem pushAppendsOneByte : Obligations.PushAppendsOneByte := by
  intro b s hr
  obtain ⟨t, ht, hmem, hhead, hovf, htrace, htail, hphase, hlatch, hreset, hresets⟩ :=
    pushAtEveryWidth 8 b s.toBlock (by decide) hr
  exact ⟨_, exec_of_next ht, hmem, hhead, hovf, htrace, htail, hphase, hlatch, rfl, hreset, hresets⟩

/-- Settles O21: FULL is COUNT 255; COUNT is `(P - C) mod 256`; a pulse stands for 256 pushes. -/
theorem overrunFiresExactlyAtCountMask : Obligations.OverrunFiresExactlyAtCountMask := by
  refine ⟨fun b s hr => ⟨_, exec_push_of_reset b hr, ?_⟩, fun pushed s h => ?_, fun bs s => ?_⟩
  · have hfull : s.isFull = true ↔ s.count.toNat = 255 := isFull_iff_count s.toBlock
    rw [Ne, ← hfull, pushByte_trace]
    cases s.isFull <;> simp
  · have hcount : s.count.toNat = (pushed.length - s.delivered.length) % 256 := h.count
    rw [hcount]
  · have hrun : runOpsAt (Instr.reset :: pushOps bs) s.toBlock = .next (pushBytes bs (resetBlock s.toBlock)) :=
      (runOpsAt_cons_of_next (execAt_reset _) _).trans (runOpsAt_pushOps bs rfl)
    exact ⟨_, runOps_of_next hrun, overrunPulses_pushBytes bs (count_of_cleared rfl rfl) rfl⟩

/-- Settles O22: the PUSH that finds FULL moves `head` onto `tail` and writes slot `head`, which is no unread one. -/
theorem overrunningPushMakesTheBufferReadEmpty : Obligations.OverrunningPushMakesTheBufferReadEmpty := by
  intro b s hr hcount
  have hfull : s.isFull = true := (isFull_iff_count s.toBlock).mpr hcount
  have hempty := pushByte_empty_of_full b hfull
  refine ⟨_, exec_push_of_reset b hr, hempty, (isEmpty_iff _).mpr hempty, count_of_empty hempty, loadSlot_pushByte_head b,
    fun k hk => loadSlot_pushByte_unread b (hcount.symm ▸ hk), fun hp => runOps_of_next ?_⟩
  have hidle : (pushByte b s.toBlock).cphase = .idle := (pushByte_cphase b _).trans hp
  have hsample := execAt_popS_of_idle ((pushByte_hadReset b _).trans hr) hidle
  rw [samplePointers_of_idle_empty hidle hempty] at hsample
  exact (runOpsAt_cons_of_next (execAt_push_of_reset b hr) _).trans (runOpsAt_singleton hsample)

/-- Settles O23: the last `P mod 256` bytes are unread (`unread_pushBytes_of_empty`), and DRAIN delivers these. -/
theorem pushesThenDrainDeliverTheLastBytes : Obligations.PushesThenDrainDeliverTheLastBytes := by
  intro bs s hr hp hempty
  have hpushes := runOpsAt_pushOps bs hr
  have hidle : (pushBytes bs s.toBlock).cphase = .idle := (pushBytes_cphase bs _).trans hp
  have hdrain := execAt_drain_of_silent (gaps := []) nofun ((pushBytes_hadReset bs _).trans hr) hidle
  have hrun := (runOpsAt_append_of_next hpushes [Instr.drain []]).trans (runOpsAt_singleton hdrain)
  have hunread : (pushBytes bs s.toBlock).unread = bs.drop (bs.length - bs.length % 256) :=
    unread_pushBytes_of_empty bs hempty
  refine ⟨_, _, runOps_of_next hpushes, runOps_of_next hrun, count_pushBytes_of_empty bs hempty, hunread, ?_,
    emptied_drained hidle, fun hlen => ?_⟩
  · rw [emptied_delivered, hunread, pushBytes_delivered]
  · have hsilent := noneFindsFull_of_empty hempty (Nat.lt_succ_of_le hlen)
    obtain ⟨htrace, hovf⟩ := pushBytes_silent hsilent
    refine ⟨?_, hovf⟩
    rw [emptied_trace, htrace, unread_pushBytes hsilent, unread_of_empty hempty, List.nil_append]

/-- Settles O47: the clause `BlockInv.flag`, which RESET starts and every operation keeps. -/
theorem ovfIsTheDisjunctionOfOverruns : Obligations.OvfIsTheDisjunctionOfOverruns := by
  intro is s t ht
  obtain ⟨u, hu, hrest⟩ := runOpsAt_cons_next_iff.mp (runOps_next_iff.mp ht).1
  cases hu
  exact (runOpsAt_keeps (fun _ _ _ h h' => h.execAt h') is (blockInv_resetBlock s.toBlock) hrest).flag

end Sys2Proof.Machine
end

section
/-! SUPPORT. The statements of 41_consumer.md on this hardware: POP.S, POP.R, POP.A, POP and DRAIN, and what a read of an empty
buffer does (R130 to R135). -/

namespace Sys2Proof.Machine

variable {aw : Nat}

/-! ### POP.S, POP.R and POP.A -/

/-- Settles O26: POP.S as its record (`samplePointers_eq_compare`), and its guard. -/
theorem popSampleCompares : Obligations.PopSampleCompares := by
  intro s hr
  refine ⟨fun hp => ?_, exec_out_of_phase (execAt_popS _) hr⟩
  rw [exec_of_next (execAt_popS_of_idle hr hp), samplePointers_eq_compare]

theorem loadSlot_of_written {s : Block aw} {i : Index aw} {b : Byte} (h : memRead s.mem i.toNat = some b) :
    loadSlot s i = b := by
  rw [loadSlot, h, Option.getD_some]

/-- Settles O27: POP.R latches `loadSlot` at `tail`, which is the byte stored there and the output `rd_data`. -/
theorem popReadLatchesTheSlot : Obligations.PopReadLatchesTheSlot := by
  intro s hr
  refine ⟨fun hp => ⟨_, exec_of_next (execAt_popR_of_sampled hr hp), fun b hb => loadSlot_of_written hb, ?_⟩,
    exec_out_of_phase (execAt_popR _) hr⟩
  exact ⟨rfl, rfl, fun _ => rfl, rfl, rfl, rfl, rfl, rfl, rfl, rfl⟩

/-- Settles O28: POP.A as its record (`deliverLatch`), with the advanced `tail` as a number. -/
theorem popAdvanceDelivers : Obligations.PopAdvanceDelivers := by
  intro s hr
  refine ⟨fun hp => ⟨_, exec_of_next (execAt_popA_of_read hr hp), advance_toNat s.tail, ?_⟩,
    exec_out_of_phase (execAt_popA _) hr⟩
  exact ⟨rfl, rfl, fun _ => rfl, rfl, rfl, rfl, rfl, rfl, rfl⟩

/-! ### POP -/

theorem popByte_tail (s : Block aw) : (popByte s).tail = if s.head ≠ s.tail then advance s.tail else s.tail := by
  by_cases h : s.head = s.tail
  · rw [popByte_of_empty h, if_neg (not_not_intro h)]
  · rw [popByte_of_nonempty h, if_pos h]

theorem popByte_rdLatch (s : Block aw) :
    (popByte s).rdLatch = if s.head ≠ s.tail then loadSlot s s.tail else s.rdLatch := by
  by_cases h : s.head = s.tail
  · rw [popByte_of_empty h, if_neg (not_not_intro h)]
  · rw [popByte_of_nonempty h, if_pos h]

theorem popByte_trace (s : Block aw) :
    (popByte s).trace = s.trace ++ (if s.head ≠ s.tail then [Event.deliver (loadSlot s s.tail)] else []) := by
  by_cases h : s.head = s.tail
  · rw [popByte_of_empty h, if_neg (not_not_intro h), List.append_nil]
  · rw [popByte_of_nonempty h, if_pos h]

/-- Settles O29: the fields of `popByte`; POP and the split steps answer the same at every width
(`consumerStepsAtEveryWidth`). -/
theorem popFusesCompareReadAdvance : Obligations.PopFusesCompareReadAdvance := by
  intro s hr
  refine ⟨fun hp => ?_, exec_out_of_phase (execAt_pop _) hr⟩
  have hpop := execAt_pop_of_idle hr hp
  obtain ⟨-, -, -, hsplit⟩ := consumerStepsAtEveryWidth 8 s.toBlock (by decide) hr
  refine ⟨_, exec_of_next hpop, ?tail, popByte_rdLatch s.toBlock, popByte_trace s.toBlock, popByte_cphase s.toBlock, ?frame⟩
  case tail => rw [popByte_tail, apply_ite BitVec.toNat, advance_toNat]; rfl
  case frame =>
    exact ⟨fun a => by rw [popByte_mem], popByte_head _, popByte_ovf _, rfl, popByte_hadReset _, popByte_resets _,
      runOps_of_next ((hsplit hp).symm.trans hpop)⟩

/-- A fused read of an idle buffer that reads empty changes nothing (41_consumer.md R135). -/
theorem popByte_of_idle_empty {s : Block aw} (hp : s.cphase = .idle) (h : s.head = s.tail) : popByte s = s := by
  rw [popByte_eq_samplePointers h, samplePointers_of_idle_empty hp h]

theorem exec_popS_of_idle_empty {s : State} (hr : s.hadReset = true) (hp : s.cphase = .idle) (h : s.head = s.tail) :
    exec .popS s = .next s := by
  rw [exec_of_next (execAt_popS_of_idle hr hp), samplePointers_of_idle_empty hp h]

theorem exec_pop_of_idle_empty {s : State} (hr : s.hadReset = true) (hp : s.cphase = .idle) (h : s.head = s.tail) :
    exec .pop s = .next s := by
  rw [exec_of_next (execAt_pop_of_idle hr hp), popByte_of_idle_empty hp h]

/-- Settles O30: neither the comparison nor the fused read changes an idle block that reads empty. -/
theorem emptyReadChangesNothing : Obligations.EmptyReadChangesNothing :=
  fun _ hr hp h => ⟨exec_popS_of_idle_empty hr hp h, exec_pop_of_idle_empty hr hp h⟩

/-! ### DRAIN and DRAIN.F -/

theorem exec_loop_out_of_phase {i : Instr} {s : State} {p : Phase} {effect : Block Config.AW → Option (Block Config.AW)}
    (hi : execAt i s.toBlock = performLoop (onlyIn p) effect s.toBlock) (hr : s.hadReset = true) (hp : s.cphase ≠ p) :
    exec i s = .refused .consumerPhase :=
  exec_refused_iff.mpr (hi.trans (performLoop_out_of_phase hr ((onlyIn_false_iff _ _).mpr hp)))

/-- Settles O13: the guard of the loops outside IDLE; in IDLE both run to their end (`drainRunsItsExpansion`,
`drainFusedRunsItsExpansion`). -/
theorem drainStartsOnlyInIdle : Obligations.DrainStartsOnlyInIdle := by
  intro gaps s hr
  rw [List.forall_mem_cons, List.forall_mem_singleton]
  refine ⟨⟨exec_loop_out_of_phase (execAt_drain gaps _) hr, fun hp => ?_⟩,
    ⟨exec_loop_out_of_phase (execAt_drainF gaps _) hr, fun hp => ?_⟩⟩
  · obtain ⟨t, _, hdrain, _⟩ := drainRunsItsExpansion gaps s hr hp
    exact ⟨t, hdrain⟩
  · obtain ⟨t, _, hdrain, _⟩ := drainFusedRunsItsExpansion gaps s hr hp
    exact ⟨t, hdrain⟩

/-- DRAIN with nothing pushed meanwhile answers the emptied block (41_consumer.md R134). -/
theorem exec_drain_of_silent {s : State} (hr : s.hadReset = true) (hp : s.cphase = .idle) :
    exec (.drain []) s = .next { s with toBlock := s.emptied } :=
  exec_of_next (execAt_drain_of_silent nofun hr hp)

/-- Settles O32: `Block.emptied` is the block with every unread byte delivered. -/
theorem drainDeliversEveryUnreadByte : Obligations.DrainDeliversEveryUnreadByte :=
  fun _ hr hp => exec_drain_of_silent hr hp

end Sys2Proof.Machine
end

section
/-! SUPPORT. What the history says of the bytes delivered and to be delivered (41_consumer.md R139, R140). -/

namespace Sys2Proof.Machine

variable {aw : Nat} {pushed : List Byte} {s : Block aw}

/-! ### Without an overrun (41_consumer.md R139) -/

/-- Without an overrun COUNT is `P - C`: it has not wrapped. -/
theorem FifoInv.count_of_noLoss (h : FifoInv pushed s) (hovf : s.ovf = false) :
    s.count.toNat = pushed.length - s.delivered.length := by
  have hwaiting : pushed.length - s.delivered.length ≤ Config.usableOf aw := Nat.sub_le_iff_le_add'.mpr (h.noLoss hovf).1
  rw [h.count, Nat.mod_eq_of_lt (hwaiting.trans_lt (Nat.sub_lt (depthOf_pos aw) Nat.one_pos))]

/-- Without an overrun the unread bytes are the pushes not yet delivered: slot `tail + k` holds push `C + k`. -/
theorem FifoInv.unread_of_noLoss (h : FifoInv pushed s) (hovf : s.ovf = false) :
    s.unread = pushed.drop s.delivered.length := by
  have hcount := h.count_of_noLoss hovf
  refine List.ext_getElem (by rw [unread_length, hcount, List.length_drop]) (fun k hk _ => ?_)
  rw [unread_length] at hk
  have hlast : s.delivered.length + k < pushed.length := by omega
  have hlap : pushed.length ≤ s.delivered.length + k + Config.depthOf aw := by
    have hlt := index_lt s.count
    omega
  have hslot := h.slots _ hlast hlap
  rw [← Nat.mod_add_mod, ← h.tail, ← index_add_toNat, List.getElem?_eq_getElem hlast] at hslot
  simp only [Block.unread, List.getElem_map, List.getElem_range, List.getElem_drop, loadSlot_of_written hslot]

theorem FifoInv.delivered_append_unread (h : FifoInv pushed s) (hovf : s.ovf = false) :
    s.delivered ++ s.unread = pushed := by
  have hprefix := (h.noLoss hovf).2
  calc s.delivered ++ s.unread = pushed.take s.delivered.length ++ pushed.drop s.delivered.length := by
        rw [← hprefix, h.unread_of_noLoss hovf]
    _ = pushed := List.take_append_drop _ _

/-- Settles O50: deliveries and unread bytes together are the pushes; a buffer that reads empty has no unread byte. -/
theorem deliveriesAreAPrefixOfPushes : Obligations.DeliveriesAreAPrefixOfPushes := by
  intro pushed s h hovf
  have hall := h.delivered_append_unread hovf
  refine ⟨⟨s.unread, hall⟩, fun _ => ⟨hall, unread_length s.toBlock⟩, fun hempty => ?_⟩
  rwa [unread_of_empty hempty, List.append_nil] at hall

/-! ### Which byte is delivered (41_consumer.md R140) -/

/-- Settles O51: POP and POP.R read slot `tail`, which holds the byte of its latest push (`FifoInv.loadSlot_tail`). -/
theorem deliveredByteIsTheLatestPushOfItsSlot : Obligations.DeliveredByteIsTheLatestPushOfItsSlot := by
  intro pushed s t h
  refine ⟨fun ht hne => ⟨_, h.loadSlot_tail (h.delivered_lt_of_nonempty hne), ?_⟩, fun ht => ?_⟩
  · obtain ⟨_, _, hpop⟩ := perform_next_iff.mp (exec_next_iff.mp ht).1
    rw [hpop, popByte_trace, if_pos hne]
  · obtain ⟨_, hp, hlatch⟩ := perform_next_iff.mp (exec_next_iff.mp ht).1
    have hsampled : s.cphase = .sampled := (onlyIn_iff _ _).mp hp
    rw [hlatch, latchSlot_rdLatch]
    exact h.loadSlot_tail (h.reading (by simp [hsampled]))

end Sys2Proof.Machine
end

section
/-! SUPPORT. Pushes in the gaps of a split read: a PUSH does not look at the consumer's registers, so it may be moved across a
step of the consumer that does not look at what it writes (41_consumer.md R138). -/

namespace Sys2Proof.Machine

variable {aw : Nat} {s : Block aw}

/-! ### A push and the consumer's registers -/

theorem pushByte_setPhase (b : Byte) (s : Block aw) (p : Phase) : pushByte b (setPhase s p) = setPhase (pushByte b s) p := by
  rw [pushByte_eq, pushByte_eq]
  rfl

theorem pushByte_setLatch (b : Byte) (s : Block aw) (c : Byte) : pushByte b (setLatch s c) = setLatch (pushByte b s) c := by
  rw [pushByte_eq, pushByte_eq]
  rfl

/-- What commutes with every PUSH commutes with a row of them. -/
theorem pushBytes_comm {f : Block aw → Block aw} (hf : ∀ b s, pushByte b (f s) = f (pushByte b s)) (bs : List Byte)
    (s : Block aw) : pushBytes bs (f s) = f (pushBytes bs s) := by
  induction bs generalizing s with
  | nil => rfl
  | cons b bs ih => rw [pushBytes_cons, hf, ih, pushBytes_cons]

/-- The block with a read in progress that has latched `c`. -/
def Block.latched (s : Block aw) (c : Byte) : Block aw := setPhase (setLatch s c) .read

theorem latchSlot_eq_latched (s : Block aw) : latchSlot s = s.latched (loadSlot s s.tail) := rfl

theorem pushBytes_setPhase (bs : List Byte) (s : Block aw) (p : Phase) :
    pushBytes bs (setPhase s p) = setPhase (pushBytes bs s) p :=
  pushBytes_comm (f := fun u => setPhase u p) (fun b u => pushByte_setPhase b u p) bs s

theorem pushBytes_latched (bs : List Byte) (s : Block aw) (c : Byte) :
    pushBytes bs (s.latched c) = (pushBytes bs s).latched c :=
  pushBytes_comm (f := fun u => u.latched c)
    (fun b u => by rw [Block.latched, pushByte_setPhase, pushByte_setLatch]; rfl) bs s

/-! ### Silent pushes and a read in progress -/

theorem noneFindsFull_append_iff (first second : List Byte) :
    noneFindsFull (first ++ second) s = true ↔
      noneFindsFull first s = true ∧ noneFindsFull second (pushBytes first s) = true := by
  induction first generalizing s with
  | nil => simp [noneFindsFull]
  | cons b first ih => rw [List.cons_append, noneFindsFull_cons_iff, noneFindsFull_cons_iff, ih, pushBytes_cons, and_assoc]

/-- Pushes none of which finds FULL leave a byte to read where there was one. -/
theorem pushBytes_nonempty {bs : List Byte} (hne : s.head ≠ s.tail) (hsilent : noneFindsFull bs s = true) :
    (pushBytes bs s).head ≠ (pushBytes bs s).tail := by
  intro hempty
  have hcount := count_pushBytes hsilent
  have hpos := count_pos_of_nonempty hne
  rw [count_of_empty hempty] at hcount
  omega

/-- Silent pushes after a POP.S that found a byte may stand before it. -/
theorem pushBytes_samplePointers {bs : List Byte} (hne : s.head ≠ s.tail) (hsilent : noneFindsFull bs s = true) :
    pushBytes bs (samplePointers s) = samplePointers (pushBytes bs s) := by
  rw [samplePointers_of_nonempty hne, samplePointers_of_nonempty (pushBytes_nonempty hne hsilent)]
  exact pushBytes_setPhase bs s .sampled

/-- Silent pushes after POP.R may stand before it: they keep slot `tail` (20_memory.md R66). -/
theorem pushBytes_latchSlot {bs : List Byte} (hne : s.head ≠ s.tail) (hsilent : noneFindsFull bs s = true) :
    pushBytes bs (latchSlot s) = latchSlot (pushBytes bs s) := by
  have hslot : loadSlot (pushBytes bs s) s.tail = loadSlot s s.tail := by
    rw [loadSlot, loadSlot, memRead_pushBytes_tail hne hsilent, pushBytes_resets]
  rw [latchSlot_eq_latched, latchSlot_eq_latched, pushBytes_latched, pushBytes_tail, hslot]

/-- A split read with silent pushes in its gaps is those pushes and a fused read. -/
theorem splitRead_eq_popByte {first second : List Byte} (hne : s.head ≠ s.tail)
    (hsilent : noneFindsFull (first ++ second) s = true) :
    deliverLatch (pushBytes second (latchSlot (pushBytes first (samplePointers s)))) =
      popByte (pushBytes (first ++ second) s) := by
  obtain ⟨hfirst, hsecond⟩ := (noneFindsFull_append_iff first second).mp hsilent
  have hne' := pushBytes_nonempty hne hfirst
  have hsecond' : noneFindsFull second (samplePointers (pushBytes first s)) = true :=
    (noneFindsFull_iff second _).mpr ((noneFindsFull_iff second (pushBytes first s)).mp hsecond)
  rw [pushBytes_samplePointers hne hfirst, pushBytes_latchSlot (s := samplePointers (pushBytes first s)) hne' hsecond',
    pushBytes_samplePointers hne' hsecond, ← pushBytes_append, popByte_eq_split (pushBytes_nonempty hne hsilent)]

/-! ### The runs -/

/-- From SAMPLED: pushes, POP.R, pushes, POP.A. -/
theorem runOpsAt_read_of_sampled (before after : List Byte) (hr : s.hadReset = true) (hp : s.cphase = .sampled) :
    runOpsAt (pushOps before ++ [Instr.popR] ++ pushOps after ++ [Instr.popA]) s =
      .next (deliverLatch (pushBytes after (latchSlot (pushBytes before s)))) := by
  have hlatch := execAt_popR_of_sampled (s := pushBytes before s) (by simpa using hr) (by simpa using hp)
  have hdeliver := execAt_popA_of_read (s := pushBytes after (latchSlot (pushBytes before s))) (by simpa using hr) (by simp)
  simp only [List.append_assoc]
  rw [runOpsAt_append_of_next (runOpsAt_pushOps before hr), runOpsAt_token_gap hlatch (by simpa using hr),
    runOpsAt_singleton hdeliver]

/-- From READ: pushes, POP.A. -/
theorem runOpsAt_advance_of_read (bs : List Byte) (hr : s.hadReset = true) (hp : s.cphase = .read) :
    runOpsAt (pushOps bs ++ [Instr.popA]) s = .next (deliverLatch (pushBytes bs s)) := by
  have hdeliver := execAt_popA_of_read (s := pushBytes bs s) (by simpa using hr) (by simpa using hp)
  rw [runOpsAt_append_of_next (runOpsAt_pushOps bs hr), runOpsAt_singleton hdeliver]

/-- Settles O54: the split read is the fused one of the block after the pushes (`splitRead_eq_popByte`). -/
theorem splitReadLinearisesWithoutOverrun : Obligations.SplitReadLinearisesWithoutOverrun := by
  intro first second s hr hp hne hsilent
  have hsample := runOpsAt_singleton (execAt_popS_of_idle hr hp)
  have hpushes : runOpsAt (pushOps first ++ pushOps second) s.toBlock = .next (pushBytes (first ++ second) s.toBlock) := by
    rw [pushOps, pushOps, ← List.map_append]
    exact runOpsAt_pushOps (first ++ second) hr
  have hpop := execAt_pop_of_idle (s := pushBytes (first ++ second) s.toBlock) (by simpa using hr) (by simpa using hp)
  have hfused := (runOpsAt_append_of_next hpushes [Instr.pop]).trans (runOpsAt_singleton hpop)
  have hread := runOpsAt_read_of_sampled (s := samplePointers s.toBlock) first second hr (samplePointers_sampled hne)
  refine ⟨_, runOps_of_next ?_, runOps_of_next hfused⟩
  simp only [List.append_assoc] at hread ⊢
  rw [runOpsAt_append_of_next hsample, hread, splitRead_eq_popByte hne hsilent]

end Sys2Proof.Machine
end

section
/-! SUPPORT. A lap: the PUSH that finds FULL, with the consumer idle or inside a read (41_consumer.md R141, R142). -/

namespace Sys2Proof.Machine

variable {aw : Nat} {s : Block aw}

/-! ### With the consumer idle (41_consumer.md R141) -/

theorem pushByte_empty_iff (b : Byte) (s : Block aw) : (pushByte b s).head = (pushByte b s).tail ↔ s.isFull = true := by
  rw [pushByte_head, pushByte_tail, isFull_iff]

/-- Settles O55: `head` is moved onto `tail` exactly from FULL; an idle block that reads empty has nothing to deliver. -/
theorem lapWithTheConsumerIdleDeliversNothing : Obligations.LapWithTheConsumerIdleDeliversNothing := by
  intro b s hr
  refine ⟨_, exec_push_of_reset b hr, pushByte_empty_iff b s.toBlock, fun hempty => ⟨?_, fun hp => ?_⟩⟩
  · rw [pushByte_trace, if_pos ((pushByte_empty_iff b s.toBlock).mp hempty)]
  · have hr' : (pushByte b s.toBlock).hadReset = true := (pushByte_hadReset b _).trans hr
    have hidle : (pushByte b s.toBlock).cphase = .idle := (pushByte_cphase b _).trans hp
    refine ⟨exec_popS_of_idle_empty hr' hidle hempty, ?_, exec_pop_of_idle_empty hr' hidle hempty⟩
    rw [exec_drain_of_silent hr' hidle, emptied_of_empty hempty]

/-! ### The unread bytes around a delivery -/

/-- What is unread depends on the slots, the pointers and the reset number alone. -/
theorem unread_congr {s t : Block aw} (hmem : t.mem = s.mem) (hhead : t.head = s.head) (htail : t.tail = s.tail)
    (hresets : t.resets = s.resets) : t.unread = s.unread := by
  simp only [Block.unread, Block.count, hhead, htail, loadSlot_congr hmem hresets]

/-- POP.A in a buffer with a byte takes the oldest. -/
theorem unread_deliverLatch (hne : s.head ≠ s.tail) : (deliverLatch s).unread = s.unread.tail := by
  rw [unread_of_nonempty hne, popByte_eq_split hne, List.tail_cons]
  exact unread_congr rfl rfl rfl rfl

/-- The byte of slot `tail` is the oldest unread one. -/
theorem loadSlot_tail_eq_unread (hne : s.head ≠ s.tail) : loadSlot s s.tail = s.unread.getD 0 0 := by
  rw [unread_of_nonempty hne, List.getD_cons_zero]

theorem nonempty_of_unread (h : s.unread ≠ []) : s.head ≠ s.tail := mt unread_of_empty h

/-- From one index bit on, FULL is not EMPTY. -/
theorem nonempty_of_full (haw : 1 ≤ aw) (hfull : s.isFull = true) : s.head ≠ s.tail := by
  obtain ⟨-, -, -, -, -, -, hnot⟩ := derivedValuesForEveryWidth aw s.head s.tail haw
  exact fun hempty => hnot ⟨(isEmpty_iff s).mpr hempty, hfull⟩

/-- A delivery from a buffer with a byte makes room. -/
theorem deliverLatch_not_full (hne : s.head ≠ s.tail) : (deliverLatch s).isFull = false := by
  rw [isFull_eq_false_iff, deliverLatch_head, deliverLatch_tail]
  exact fun h => hne (add_right_cancel h)

/-- POP.A right after a PUSH, full or not, leaves what the PUSH right after POP.A does. -/
theorem unread_deliverLatch_pushByte (b : Byte) (hne : s.head ≠ s.tail) :
    (deliverLatch (pushByte b s)).unread = s.unread.tail ++ [b] := by
  rw [← unread_deliverLatch hne, ← unread_pushByte b (deliverLatch_not_full hne)]
  exact unread_congr (by simp) (by simp) (by simp) (by simp)

/-! ### With a read in progress (41_consumer.md R142) -/

section Lap

variable {b1 : Byte} {later : List Byte} (hfull : s.isFull = true)

include hfull

/-- Fewer than `DEPTH` pushes after the one that found FULL find no FULL again. -/
theorem noneFindsFull_after_lap (hlen : later.length < Config.depthOf aw) :
    noneFindsFull later (pushByte b1 s) = true :=
  noneFindsFull_of_empty (pushByte_empty_of_full b1 hfull) hlen

/-- After a lap the pushes behind it alone are unread. -/
theorem unread_after_lap (hlen : later.length < Config.depthOf aw) : (pushBytes (b1 :: later) s).unread = later := by
  rw [pushBytes_cons, unread_pushBytes (noneFindsFull_after_lap hfull hlen),
    unread_of_empty (pushByte_empty_of_full b1 hfull), List.nil_append]

theorem ovf_after_lap (hlen : later.length < Config.depthOf aw) : (pushBytes (b1 :: later) s).ovf = true := by
  rw [pushBytes_cons, (pushBytes_silent (noneFindsFull_after_lap hfull hlen)).2, pushByte_ovf, hfull, Bool.or_true]

theorem trace_after_lap (hlen : later.length < Config.depthOf aw) :
    (pushBytes (b1 :: later) s).trace = s.trace ++ [.overrun] := by
  rw [pushBytes_cons, (pushBytes_silent (noneFindsFull_after_lap hfull hlen)).1, pushByte_trace, if_pos hfull]

/-- POP.R after a lap reads the first push behind it, or the oldest byte when there is none. -/
theorem loadSlot_tail_after_lap (hne : s.head ≠ s.tail) (hlen : later.length < Config.depthOf aw) :
    loadSlot (pushBytes (b1 :: later) s) s.tail = later.getD 0 (s.unread.getD 0 0) := by
  cases later with
  | nil =>
    rw [pushBytes_cons, pushBytes_nil, loadSlot_pushByte_other b1 hne.symm, loadSlot_tail_eq_unread hne, List.getD_nil]
  | cons b2 rest =>
    have hunread := unread_after_lap (b1 := b1) hfull hlen
    have hslot := loadSlot_tail_eq_unread (nonempty_of_unread (hunread ▸ List.cons_ne_nil b2 rest))
    rwa [hunread, pushBytes_tail] at hslot

/-- POP.A right after a lap leaves a full buffer again. -/
theorem isFull_deliverLatch_after_lap : (deliverLatch (pushByte b1 s)).isFull = true := by
  rw [isFull_iff, deliverLatch_head, pushByte_empty_of_full b1 hfull, deliverLatch_tail]

/-- The unread bytes after a lap, pushes behind it and POP.A (41_consumer.md R142, cases A to C). -/
theorem unread_deliverLatch_after_lap (hne : s.head ≠ s.tail) (hlen : later.length < Config.depthOf aw) :
    (deliverLatch (pushBytes (b1 :: later) s)).unread = if later = [] then s.unread.tail ++ [b1] else later.tail := by
  split
  next hnil => subst hnil; exact unread_deliverLatch_pushByte b1 hne
  next hpushed =>
    have hunread := unread_after_lap (b1 := b1) hfull hlen
    rw [unread_deliverLatch (nonempty_of_unread (by rwa [hunread])), hunread]

/-- What a read in READ over which a lap has gone leaves and delivers (41_consumer.md R142). -/
theorem deliverLatch_after_lap (hne : s.head ≠ s.tail) (hlen : later.length < Config.depthOf aw) :
    ((deliverLatch (pushBytes (b1 :: later) s)).unread = (if later = [] then s.unread.tail ++ [b1] else later.tail) ∧
      (later = [] → (deliverLatch (pushBytes (b1 :: later) s)).isFull = true) ∧
      (deliverLatch (pushBytes (b1 :: later) s)).ovf = true) ∧
    (deliverLatch (pushBytes (b1 :: later) s)).trace = s.trace ++ [.overrun, .deliver s.rdLatch] := by
  refine ⟨⟨unread_deliverLatch_after_lap hfull hne hlen, fun hnil => ?_, ovf_after_lap hfull hlen⟩, ?_⟩
  · subst hnil
    exact isFull_deliverLatch_after_lap hfull
  · rw [deliverLatch_trace, trace_after_lap hfull hlen, pushBytes_rdLatch, List.append_assoc, List.singleton_append]

/-- A read in SAMPLED over which a lap goes is one in READ that has latched the byte POP.R finds after the lap. -/
theorem pushBytes_latchSlot_after_lap {before after : List Byte} (hne : s.head ≠ s.tail)
    (hlen : before.length < Config.depthOf aw) :
    pushBytes after (latchSlot (pushBytes (b1 :: before) s)) =
      pushBytes (b1 :: (before ++ after)) (s.latched (before.getD 0 (s.unread.getD 0 0))) := by
  rw [latchSlot_eq_latched, pushBytes_tail, loadSlot_tail_after_lap hfull hne hlen, pushBytes_latched, ← pushBytes_append,
    ← pushBytes_latched, List.cons_append]

end Lap

/-- Settles O56: the read in READ by the lemmas of this section; one in SAMPLED is such a read of the block that has latched
the byte POP.R finds (`pushBytes_latchSlot_after_lap`). -/
theorem lapWithAReadInProgress : Obligations.LapWithAReadInProgress := by
  intro b1 before after s hr hfull hlen left
  have hne : s.head ≠ s.tail := nonempty_of_full (s := s.toBlock) (by decide) hfull
  have hlater : (before ++ after).length < 256 := by rw [List.length_append]; omega
  refine ⟨fun hp => ?sampled, fun hp => ?read⟩
  case sampled =>
    have hbefore : before.length < 256 := by omega
    have hrun := runOpsAt_read_of_sampled (b1 :: before) after hr hp
    rw [pushBytes_latchSlot_after_lap hfull hne hbefore] at hrun
    exact ⟨_, runOps_of_next hrun, deliverLatch_after_lap (s := s.latched (before.getD 0 (s.unread.getD 0 0))) hfull hne hlater⟩
  case read =>
    exact ⟨_, runOps_of_next (runOpsAt_advance_of_read _ hr hp), deliverLatch_after_lap hfull hne hlater⟩

end Sys2Proof.Machine
end

section
/-! SUPPORT. The statements of 42_control.md on this hardware: NOP, RESET, and the status outputs (R160 to R165). -/

namespace Sys2Proof.Machine

variable {aw : Nat}

/-! ### NOP (42_control.md R160) -/

/-- An operation completes only after a RESET, or is one (10_state.md R44). -/
theorem execAt_hadReset {i : Instr} {s t : Block aw} (ht : execAt i s = .next t) : t.hadReset = true := by
  cases i with
  | nop => obtain ⟨hr, _, rfl⟩ := perform_next_iff.mp ht; exact hr
  | push b => obtain ⟨hr, _, rfl⟩ := perform_next_iff.mp ht; exact (pushByte_hadReset b s).trans hr
  | popS | popR | popA => obtain ⟨hr, _, rfl⟩ := perform_next_iff.mp ht; exact hr
  | pop => obtain ⟨hr, _, rfl⟩ := perform_next_iff.mp ht; exact (popByte_hadReset s).trans hr
  | reset => cases ht; rfl
  | drain gaps =>
    obtain ⟨hr, hp, hloop⟩ := performLoop_next_iff.mp ht
    exact drainLoop_keeps (P := fun u => u.hadReset = true) (fun b u h => (pushByte_hadReset b u).trans h)
      (fun _ _ h => h) (fun _ _ h => h) (fun _ _ h => h) _ gaps ((onlyIn_iff _ _).mp hp) hr hloop
  | drainF gaps =>
    obtain ⟨hr, hp, hloop⟩ := performLoop_next_iff.mp ht
    exact drainFLoop_keeps (P := fun u => u.hadReset = true) (fun b u h => (pushByte_hadReset b u).trans h)
      (fun u _ h => (popByte_hadReset u).trans h) _ gaps ((onlyIn_iff _ _).mp hp) hr hloop
  | pushS | pushN => obtain ⟨hr, _, rfl⟩ := perform_next_iff.mp ht; exact (pushBytes_hadReset _ s).trans hr

/-- Two runs that begin with the same operation agree when their rests agree from the state it answers. -/
theorem runOps_cons_congr {i : Instr} {is js : List Instr} {s : State}
    (h : ∀ t, exec i s = .next t → runOps is t = runOps js t) : runOps (i :: is) s = runOps (i :: js) s := by
  rw [runOps, runOps]
  cases hi : exec i s with
  | next t => exact h t hi
  | fault | refused => rfl

theorem runOps_nop_cons {s : State} (hr : s.hadReset = true) (is : List Instr) : runOps (.nop :: is) s = runOps is s := by
  rw [runOps, exec_nop_of_reset hr]

theorem runOps_filter_nop (is : List Instr) {s : State} (hr : s.hadReset = true) :
    runOps (is.filter (fun i => i ≠ .nop)) s = runOps is s := by
  induction is generalizing s with
  | nil => rfl
  | cons i is ih =>
    by_cases hi : i = .nop
    · rw [List.filter_cons_of_neg (by simpa using hi), ih hr, hi, runOps_nop_cons hr]
    · rw [List.filter_cons_of_pos (by simpa using hi)]
      exact runOps_cons_congr (fun t ht => ih (execAt_hadReset (exec_next_iff.mp ht).1))

/-- Settles O15: NOP answers the same state, so by induction on the list each NOP may be taken out: every operation that
completes leaves a block on which NOP completes (`execAt_hadReset`). -/
theorem nopHasNoEffect : Obligations.NopHasNoEffect :=
  fun _ hr => ⟨exec_nop_of_reset hr, fun is => runOps_filter_nop is hr⟩

/-! ### RESET (42_control.md R161) -/

/-- Settles O16: the fields of `resetBlock`, whose trace is empty. -/
theorem resetClearsTheBlock : Obligations.ResetClearsTheBlock :=
  fun s => ⟨_, exec_of_next (execAt_reset s.toBlock), rfl, rfl, rfl, rfl, List.nil_sublist _⟩

/-! ### The level outputs (42_control.md R162 to R164) -/

/-- Settles O41: EMPTY, FULL and COUNT of the pointers as naturals, at `AW = 8`. -/
theorem levelOutputsShowTheState : Obligations.LevelOutputsShowTheState := by
  intro s
  refine ⟨?empty, ?full, ?fullByCount, countAt_toNat s.head s.tail⟩
  case empty => exact Bool.eq_iff_iff.mpr ((isEmpty_iff s.toBlock).trans decide_eq_true_iff.symm)
  case full => exact Bool.eq_iff_iff.mpr ((isFull_iff_toNat s.toBlock).trans decide_eq_true_iff.symm)
  case fullByCount => exact Bool.eq_iff_iff.mpr ((isFull_iff_count s.toBlock).trans decide_eq_true_iff.symm)

/-! ### The overrun outputs (42_control.md R165) -/

theorem overrunPulses_deliverLatch (s : Block aw) : overrunPulses (deliverLatch s) = overrunPulses s := by
  simp [overrunPulses]

theorem overrunPulses_popByte (s : Block aw) : overrunPulses (popByte s) = overrunPulses s := by
  rw [overrunPulses, popByte_trace]
  split <;> simp [overrunPulses]

/-- Only RESET and a PUSH that finds FULL change the flag or the number of pulses. -/
theorem execAt_keeps_overruns {i : Instr} {s t : Block aw} (hi : i.isCore = true) (hreset : i ≠ .reset)
    (hsilent : (∃ b, i = .push b) → s.isFull = false) (ht : execAt i s = .next t) :
    t.ovf = s.ovf ∧ overrunPulses t = overrunPulses s := by
  cases i with
  | nop | popS | popR => obtain ⟨_, _, rfl⟩ := perform_next_iff.mp ht; exact ⟨rfl, rfl⟩
  | push b =>
    obtain ⟨_, _, rfl⟩ := perform_next_iff.mp ht
    rw [pushByte_ovf, overrunPulses_pushByte, hsilent ⟨b, rfl⟩]
    exact ⟨Bool.or_false _, rfl⟩
  | popA => obtain ⟨_, _, rfl⟩ := perform_next_iff.mp ht; exact ⟨rfl, overrunPulses_deliverLatch s⟩
  | pop => obtain ⟨_, _, rfl⟩ := perform_next_iff.mp ht; exact ⟨popByte_ovf s, overrunPulses_popByte s⟩
  | reset => exact absurd rfl hreset
  | drain | drainF | pushS | pushN => cases hi

/-- Settles O42: RESET clears both, a PUSH that found FULL is `pushByte_ovf` and `overrunPulses_pushByte`, and no other
operation touches them (`execAt_keeps_overruns`). -/
theorem overrunOutputsFollowThePushes : Obligations.OverrunOutputsFollowThePushes := by
  intro i s t hi ht
  have hblock := (exec_next_iff.mp ht).1
  refine ⟨rfl, ?reset, ?overrun, fun hreset hsilent => execAt_keeps_overruns hi hreset hsilent hblock⟩
  case reset =>
    rintro rfl
    cases ht
    exact ⟨rfl, rfl⟩
  case overrun =>
    rintro ⟨b, rfl⟩ hfull
    obtain ⟨_, _, hpush⟩ := perform_next_iff.mp hblock
    rw [hpush, pushByte_ovf, overrunPulses_pushByte, hfull]
    exact ⟨Bool.or_true _, rfl⟩

end Sys2Proof.Machine
end

section
/-! SUPPORT. Neither a step nor an operation of this hardware faults (60_exceptions.md R182). -/

namespace Sys2Proof.Machine

theorem exec_no_fault (i : Instr) (s : State) (f : Fault) : exec i s ≠ .fault f := by
  rw [exec_eq_onBlock, ne_eq, onBlock_fault_iff]
  exact execAt_no_fault i s.toBlock f

theorem step_no_fault (s : State) (f : Fault) : step s ≠ .fault f := by
  cases hs : s.schedule with
  | nil =>
    rw [step_of_schedule_nil hs]
    exact exec_no_fault .nop s f
  | cons tok rest =>
    rw [step_of_schedule hs, ne_eq, onBlock_fault_iff]
    exact tokenAt_no_fault tok s.toBlock f

/-- Settles O14: no operation faults, since the budgets of DRAIN and DRAIN.F suffice (`execAt_no_fault`); a step performs an
operation or refuses its token. -/
theorem nothingFaults : Obligations.NothingFaults :=
  fun s f => ⟨step_no_fault s f, fun i => exec_no_fault i s f⟩

end Sys2Proof.Machine
end

section
/-! SUPPORT. What an agent's operations may write (60_exceptions.md R188): the frame of the producer's and of the consumer's. -/

namespace Sys2Proof.Machine

variable {aw : Nat}

/-! ### Who performs what -/

/-- Every operation but NOP is performed by the agent of its row alone. -/
theorem eq_agent_of_mayPerform {a : Agent} {i : Instr} (h : mayPerform a i = true) (hi : i ≠ .nop) : a = i.agent := by
  have hmem : i.agent ∈ i.performers := by
    cases i with
    | nop => exact absurd rfl hi
    | drain | drainF => simp only [Instr.performers, Instr.agent]; split <;> exact List.mem_cons_self
    | push | popS | popR | popA | pop | reset | pushS | pushN => exact List.mem_singleton.mpr rfl
  exact (beq_iff_eq.mp (List.all_eq_true.mp h _ hmem)).symm

/-- An operation of the consumer that one agent performs has no PUSH in its gaps: the producer would perform that. -/
theorem gapPushes_of_mayPerform {a : Agent} {i : Instr} (h : mayPerform a i = true) (hi : i.agent = .consumer) :
    i.gapPushes = [] := by
  by_contra hgaps
  have hperformers : i.performers = [.consumer, .producer] := by simp [Instr.performers, hi, hgaps]
  rw [mayPerform, hperformers] at h
  cases a <;> cases h

/-! ### What an operation leaves alone -/

/-- What no operation but RESET changes: the model's own fields stay, and the trace is only appended to (10_state.md R33). -/
structure KeepsLog (s t : Block aw) : Prop where
  resets : t.resets = s.resets
  hadReset : t.hadReset = s.hadReset
  trace : s.trace <+: t.trace

theorem KeepsLog.refl (s : Block aw) : KeepsLog s s := ⟨rfl, rfl, List.prefix_rfl⟩

theorem KeepsLog.trans {s t u : Block aw} (h : KeepsLog s t) (h' : KeepsLog t u) : KeepsLog s u :=
  ⟨h'.resets.trans h.resets, h'.hadReset.trans h.hadReset, h.trace.trans h'.trace⟩

/-- What the producer leaves alone: the consumer's registers, and an `ovf` that is set. -/
structure ProducerFrame (s t : Block aw) : Prop extends KeepsLog s t where
  tail : t.tail = s.tail
  cphase : t.cphase = s.cphase
  rdLatch : t.rdLatch = s.rdLatch
  ovfStays : s.ovf = true → t.ovf = true

theorem ProducerFrame.refl (s : Block aw) : ProducerFrame s s := ⟨.refl s, rfl, rfl, rfl, id⟩

theorem ProducerFrame.trans {s t u : Block aw} (h : ProducerFrame s t) (h' : ProducerFrame t u) : ProducerFrame s u :=
  ⟨h.toKeepsLog.trans h'.toKeepsLog, h'.tail.trans h.tail, h'.cphase.trans h.cphase, h'.rdLatch.trans h.rdLatch,
    h'.ovfStays ∘ h.ovfStays⟩

theorem ProducerFrame.pieceUnchanged {s t : Block aw} (h : ProducerFrame s t) {p : Piece}
    (hp : mayWrite .producer p = false) : pieceUnchanged p s t := by
  cases p with
  | slots | head | ovf => cases hp
  | tail => exact h.tail
  | cphase => exact h.cphase
  | rdLatch => exact h.rdLatch

/-- What the consumer leaves alone: the slots, `head` and `ovf`. -/
structure ConsumerFrame (s t : Block aw) : Prop extends KeepsLog s t where
  mem : t.mem = s.mem
  head : t.head = s.head
  ovf : t.ovf = s.ovf

theorem ConsumerFrame.refl (s : Block aw) : ConsumerFrame s s := ⟨.refl s, rfl, rfl, rfl⟩

theorem ConsumerFrame.trans {s t u : Block aw} (h : ConsumerFrame s t) (h' : ConsumerFrame t u) : ConsumerFrame s u :=
  ⟨h.toKeepsLog.trans h'.toKeepsLog, h'.mem.trans h.mem, h'.head.trans h.head, h'.ovf.trans h.ovf⟩

theorem ConsumerFrame.pieceUnchanged {s t : Block aw} (h : ConsumerFrame s t) {p : Piece}
    (hp : mayWrite .consumer p = false) : pieceUnchanged p s t := by
  cases p with
  | tail | cphase | rdLatch => cases hp
  | slots => exact fun a => congrArg (memRead · a) h.mem
  | head => exact h.head
  | ovf => exact h.ovf

theorem pieceUnchanged_refl (p : Piece) (s : Block aw) : pieceUnchanged p s s := by
  cases p with
  | slots => exact fun _ => rfl
  | head | tail | ovf | cphase | rdLatch => rfl

theorem producerFrame_pushByte (b : Byte) (s : Block aw) : ProducerFrame s (pushByte b s) where
  resets := pushByte_resets b s
  hadReset := pushByte_hadReset b s
  trace := by
    rw [pushByte_trace]
    split
    · exact List.prefix_append _ _
    · exact List.prefix_rfl
  tail := pushByte_tail b s
  cphase := pushByte_cphase b s
  rdLatch := pushByte_rdLatch b s
  ovfStays := fun h => by rw [pushByte_ovf, h, Bool.true_or]

theorem producerFrame_pushBytes (bs : List Byte) (s : Block aw) : ProducerFrame s (pushBytes bs s) :=
  pushBytes_keeps (fun b t h => h.trans (producerFrame_pushByte b t)) bs (.refl s)

theorem consumerFrame_samplePointers (s : Block aw) : ConsumerFrame s (samplePointers s) :=
  ⟨⟨rfl, rfl, List.prefix_rfl⟩, rfl, rfl, rfl⟩

theorem consumerFrame_latchSlot (s : Block aw) : ConsumerFrame s (latchSlot s) :=
  ⟨⟨rfl, rfl, List.prefix_rfl⟩, rfl, rfl, rfl⟩

theorem consumerFrame_deliverLatch (s : Block aw) : ConsumerFrame s (deliverLatch s) :=
  ⟨⟨rfl, rfl, List.prefix_append _ _⟩, rfl, rfl, rfl⟩

theorem consumerFrame_popByte (s : Block aw) : ConsumerFrame s (popByte s) :=
  ⟨⟨popByte_resets s, popByte_hadReset s, popByte_trace s ▸ List.prefix_append _ _⟩, popByte_mem s, popByte_head s,
    popByte_ovf s⟩

theorem execAt_producerFrame {i : Instr} {s t : Block aw} (hi : i.agent = .producer) (ht : execAt i s = .next t) :
    ProducerFrame s t := by
  cases i with
  | push b => obtain ⟨_, _, rfl⟩ := perform_next_iff.mp ht; exact producerFrame_pushByte b s
  | pushS | pushN => obtain ⟨_, _, rfl⟩ := perform_next_iff.mp ht; exact producerFrame_pushBytes _ s
  | nop | popS | popR | popA | pop | reset | drain | drainF => cases hi

theorem execAt_consumerFrame {i : Instr} {s t : Block aw} (hi : i.agent = .consumer) (hgaps : i.gapPushes = [])
    (ht : execAt i s = .next t) : ConsumerFrame s t := by
  cases i with
  | popS => obtain ⟨_, _, rfl⟩ := perform_next_iff.mp ht; exact consumerFrame_samplePointers s
  | popR => obtain ⟨_, _, rfl⟩ := perform_next_iff.mp ht; exact consumerFrame_latchSlot s
  | popA => obtain ⟨_, _, rfl⟩ := perform_next_iff.mp ht; exact consumerFrame_deliverLatch s
  | pop => obtain ⟨_, _, rfl⟩ := perform_next_iff.mp ht; exact consumerFrame_popByte s
  | drain gaps =>
    obtain ⟨_, hp, hloop⟩ := performLoop_next_iff.mp ht
    exact drainLoop_keeps_of_silent (fun u _ h => h.trans (consumerFrame_samplePointers u))
      (fun u _ h => h.trans (consumerFrame_latchSlot u)) (fun u _ h => h.trans (consumerFrame_deliverLatch u)) _
      (List.flatten_eq_nil_iff.mp hgaps) ((onlyIn_iff _ _).mp hp) (.refl s) hloop
  | drainF gaps =>
    obtain ⟨_, hp, hloop⟩ := performLoop_next_iff.mp ht
    exact drainFLoop_keeps_of_silent (fun u _ h => h.trans (consumerFrame_popByte u)) _
      (List.flatten_eq_nil_iff.mp hgaps) ((onlyIn_iff _ _).mp hp) (.refl s) hloop
  | nop | push | reset | pushS | pushN => cases hi

/-! ### What an agent's operation answers -/

/-- What an agent's operation answers: NOP the same block, RESET by the host alone, and else the agent's frame. -/
theorem execAt_cases_of_mayPerform {a : Agent} {i : Instr} {s t : Block aw} (hmay : mayPerform a i = true)
    (ht : execAt i s = .next t) :
    t = s ∨ (a = .host ∧ i = .reset) ∨ (a = .producer ∧ ProducerFrame s t) ∨ (a = .consumer ∧ ConsumerFrame s t) := by
  cases i with
  | nop => obtain ⟨_, _, rfl⟩ := perform_next_iff.mp ht; exact .inl rfl
  | reset => exact .inr (.inl ⟨eq_agent_of_mayPerform hmay nofun, rfl⟩)
  | push | pushS | pushN =>
    exact .inr (.inr (.inl ⟨eq_agent_of_mayPerform hmay nofun, execAt_producerFrame rfl ht⟩))
  | popS | popR | popA | pop | drain | drainF =>
    exact .inr (.inr (.inr ⟨eq_agent_of_mayPerform hmay nofun,
      execAt_consumerFrame rfl (gapPushes_of_mayPerform hmay rfl) ht⟩))

section Agents

variable {a : Agent} {i : Instr} {s t : Block aw}

theorem execAt_pieceUnchanged (hmay : mayPerform a i = true) (ht : execAt i s = .next t) {p : Piece}
    (hp : mayWrite a p = false) : pieceUnchanged p s t := by
  obtain rfl | ⟨rfl, _⟩ | ⟨rfl, h⟩ | ⟨rfl, h⟩ := execAt_cases_of_mayPerform hmay ht
  · exact pieceUnchanged_refl p t
  · cases hp
  · exact h.pieceUnchanged hp
  · exact h.pieceUnchanged hp

theorem execAt_keepsLog (hmay : mayPerform a i = true) (hreset : i ≠ .reset) (ht : execAt i s = .next t) :
    KeepsLog s t := by
  obtain rfl | ⟨_, h⟩ | ⟨_, h⟩ | ⟨_, h⟩ := execAt_cases_of_mayPerform hmay ht
  · exact .refl t
  · exact absurd h hreset
  · exact h.toKeepsLog
  · exact h.toKeepsLog

/-- The producer only sets `ovf`. -/
theorem execAt_ovf_of_producer (hmay : mayPerform .producer i = true) (ht : execAt i s = .next t) (hovf : s.ovf = true) :
    t.ovf = true := by
  obtain rfl | ⟨h, _⟩ | ⟨_, h⟩ | ⟨h, _⟩ := execAt_cases_of_mayPerform hmay ht
  · exact hovf
  · cases h
  · exact h.ovfStays hovf
  · cases h

/-- A PUSH, the producer's only token that writes, writes no slot but the one at `head`. -/
theorem execAt_slots_of_producer (hmay : mayPerform .producer i = true) (hi : i.isCore = true) (ht : execAt i s = .next t)
    {x : Nat} (hx : x ≠ s.head.toNat) : memRead t.mem x = memRead s.mem x := by
  cases i with
  | nop => obtain ⟨_, _, rfl⟩ := perform_next_iff.mp ht; rfl
  | push b =>
    obtain ⟨_, _, rfl⟩ := perform_next_iff.mp ht
    rw [pushByte_mem, memRead_memWrite_other _ _ hx]
  | popS | popR | popA | pop | reset => cases hmay
  | drain | drainF | pushS | pushN => cases hi

/-- The host changes nothing but through RESET. -/
theorem execAt_eq_of_host (hmay : mayPerform .host i = true) (hreset : i ≠ .reset) (ht : execAt i s = .next t) : t = s := by
  obtain h | ⟨_, h⟩ | ⟨h, _⟩ | ⟨h, _⟩ := execAt_cases_of_mayPerform hmay ht
  · exact h
  · exact absurd h hreset
  · cases h
  · cases h

end Agents

/-- Settles O37: each agent's frame, from what its operations answer (`execAt_cases_of_mayPerform`). -/
theorem agentsKeepToTheirCapabilities : Obligations.AgentsKeepToTheirCapabilities := by
  intro a i s t hmay ht
  obtain ⟨hblock, hschedule⟩ := exec_next_iff.mp ht
  refine ⟨fun p hp => execAt_pieceUnchanged hmay hblock hp, ?producer, ?host, hschedule, ?log⟩
  case producer =>
    rintro rfl
    exact ⟨execAt_ovf_of_producer hmay hblock, fun hi x hx => execAt_slots_of_producer hmay hi hblock hx⟩
  case host =>
    rintro rfl hreset
    exact (state_eq_iff t s).mpr ⟨execAt_eq_of_host hmay hreset hblock, hschedule⟩
  case log =>
    intro hreset
    obtain ⟨hresets, hhad, more, hmore⟩ := execAt_keepsLog hmay hreset hblock
    exact ⟨hresets, hhad, more, hmore.symm⟩

end Sys2Proof.Machine
end

section
/-! SUPPORT. What an agent's operations read (60_exceptions.md R188, R190): in two blocks that look the same to it they do the
same. -/

namespace Sys2Proof.Machine

variable {aw : Nat} {a : Agent} {s t : Block aw}

/-! ### What the agents see -/

theorem head_eq_of_sameView (h : sameView a s t) (ha : mayRead a .head = true) : s.head = t.head :=
  BitVec.eq_of_toNat_eq (h .head ha)

theorem tail_eq_of_sameView (h : sameView a s t) (ha : mayRead a .tail = true) : s.tail = t.tail :=
  BitVec.eq_of_toNat_eq (h .tail ha)

theorem bool_eq_of_toNat_eq : ∀ {x y : Bool}, x.toNat = y.toNat → x = y := by decide

theorem isFull_eq_of_sameView (h : sameView a s t) (ha : mayRead a .wrFull = true) : s.isFull = t.isFull :=
  bool_eq_of_toNat_eq (h .wrFull ha)

theorem isEmpty_eq_of_sameView (h : sameView a s t) (ha : mayRead a .rdEmpty = true) : s.isEmpty = t.isEmpty :=
  bool_eq_of_toNat_eq (h .rdEmpty ha)

theorem loadSlot_tail_eq_of_sameView (h : sameView a s t) (ha : mayRead a .slotAtTail = true) :
    loadSlot s s.tail = loadSlot t t.tail :=
  BitVec.eq_of_toNat_eq (h .slotAtTail ha)

/-! ### PUSH -/

/-- A PUSH stores the same byte in the same slot, and finds FULL in both blocks or in neither. -/
theorem pushByte_of_sameView (h : sameView .producer s t) (b : Byte) :
    (pushByte b s).head = (pushByte b t).head ∧
    (∀ x, memRead s.mem x = memRead t.mem x → memRead (pushByte b s).mem x = memRead (pushByte b t).mem x) ∧
    (s.ovf = t.ovf → (pushByte b s).ovf = (pushByte b t).ovf) ∧
    ∃ more, (pushByte b s).trace = s.trace ++ more ∧ (pushByte b t).trace = t.trace ++ more := by
  have hhead := head_eq_of_sameView h rfl
  have hfull := isFull_eq_of_sameView h rfl
  refine ⟨?head, ?slots, ?ovf, ?trace⟩
  case head => rw [pushByte_head, pushByte_head, hhead]
  case slots =>
    intro x hx
    rw [pushByte_mem, pushByte_mem, memRead_memWrite, memRead_memWrite, hhead, hx]
  case ovf =>
    intro hovf
    rw [pushByte_ovf, pushByte_ovf, hovf, hfull]
  case trace =>
    refine ⟨if t.isFull then [.overrun] else [], ?_⟩
    rw [pushByte_trace, pushByte_trace, hfull]
    cases t.isFull <;> simp

/-! ### The consumer's steps -/

/-- From `s` to `s'` and from `t` to `t'` the consumer gets the same: the parts that it writes, and the events. -/
structure SameConsumerStep (s t s' t' : Block aw) : Prop where
  tail : s'.tail = t'.tail
  cphase : s'.cphase = t'.cphase
  rdLatch : s'.rdLatch = t'.rdLatch
  events : ∃ more, s'.trace = s.trace ++ more ∧ t'.trace = t.trace ++ more

theorem sameConsumerStep_samplePointers (h : sameView .consumer s t) (hlatch : s.rdLatch = t.rdLatch) :
    SameConsumerStep s t (samplePointers s) (samplePointers t) where
  tail := tail_eq_of_sameView h rfl
  cphase := by rw [samplePointers_eq, samplePointers_eq, isEmpty_eq_of_sameView h rfl]
  rdLatch := hlatch
  events := ⟨[], (List.append_nil _).symm, (List.append_nil _).symm⟩

theorem sameConsumerStep_latchSlot (h : sameView .consumer s t) : SameConsumerStep s t (latchSlot s) (latchSlot t) where
  tail := tail_eq_of_sameView h rfl
  cphase := rfl
  rdLatch := loadSlot_tail_eq_of_sameView h rfl
  events := ⟨[], (List.append_nil _).symm, (List.append_nil _).symm⟩

theorem sameConsumerStep_deliverLatch (h : sameView .consumer s t) (hlatch : s.rdLatch = t.rdLatch) :
    SameConsumerStep s t (deliverLatch s) (deliverLatch t) where
  tail := congrArg advance (tail_eq_of_sameView h rfl)
  cphase := rfl
  rdLatch := hlatch
  events := ⟨[.deliver t.rdLatch], hlatch ▸ rfl, rfl⟩

theorem sameConsumerStep_popByte (h : sameView .consumer s t) (hlatch : s.rdLatch = t.rdLatch) :
    SameConsumerStep s t (popByte s) (popByte t) := by
  have hhead := head_eq_of_sameView h rfl
  have htail := tail_eq_of_sameView h rfl
  have hslot := loadSlot_tail_eq_of_sameView h rfl
  refine ⟨?tail, ?cphase, ?rdLatch, _, ?trace, popByte_trace t⟩
  case tail => rw [popByte_tail, popByte_tail, hhead, htail]
  case cphase => rw [popByte_cphase, popByte_cphase]
  case rdLatch => rw [popByte_rdLatch, popByte_rdLatch, hslot, hhead, htail, hlatch]
  case trace => rw [popByte_trace, hslot, hhead, htail]

/-- The guard looks at the phase alone, so it admits the operation in both blocks or refuses it in both for one reason. -/
theorem perform_of_sameConsumerStep {admits : Phase → Bool} {effect : Block aw → Block aw} (hs : s.hadReset = true)
    (ht : t.hadReset = true) (hphase : s.cphase = t.cphase) (h : SameConsumerStep s t (effect s) (effect t)) :
    (∃ s' t' more, perform admits effect s = .next s' ∧ perform admits effect t = .next t' ∧ s'.tail = t'.tail ∧
      s'.cphase = t'.cphase ∧ s'.rdLatch = t'.rdLatch ∧ s'.trace = s.trace ++ more ∧ t'.trace = t.trace ++ more) ∨
    ∃ r, perform admits effect s = .refused r ∧ perform admits effect t = .refused r := by
  cases hp : admits s.cphase with
  | true =>
    obtain ⟨more, hevents⟩ := h.events
    exact .inl ⟨_, _, more, perform_of_admitted hs hp, perform_of_admitted ht (hphase ▸ hp), h.tail, h.cphase, h.rdLatch,
      hevents⟩
  | false => exact .inr ⟨_, perform_out_of_phase hs hp, perform_out_of_phase ht (hphase ▸ hp)⟩

/-- Settles O38: PUSH reads `head` and `wr_full`; each consumer operation is its guard, which reads the phase, and a step that
reads the pointers, the slot at `tail` and the consumer's own latch. -/
theorem operationsReadOnlyTheirView : Obligations.OperationsReadOnlyTheirView := by
  intro aw s t hs ht
  refine ⟨fun h b => ?producer, fun h hphase hlatch => ?consumer⟩
  case producer =>
    obtain ⟨hhead, hslots, hovf, more, htrace⟩ := pushByte_of_sameView h b
    exact ⟨_, _, more, execAt_push_of_reset b hs, execAt_push_of_reset b ht, hhead, hslots, hovf, htrace⟩
  case consumer =>
    rw [List.forall_mem_cons, List.forall_mem_cons, List.forall_mem_cons, List.forall_mem_singleton]
    exact ⟨perform_of_sameConsumerStep hs ht hphase (sameConsumerStep_samplePointers h hlatch),
      perform_of_sameConsumerStep hs ht hphase (sameConsumerStep_latchSlot h),
      perform_of_sameConsumerStep hs ht hphase (sameConsumerStep_deliverLatch h hlatch),
      perform_of_sameConsumerStep hs ht hphase (sameConsumerStep_popByte h hlatch)⟩

end Sys2Proof.Machine
end

section
/-! SUPPORT. Infinite schedules that no token stops: pushes alone, and a DRAIN with a PUSH before each comparison
(70_reset_and_hazards.md R222, R226). -/

namespace Sys2Proof.Machine

variable {aw : Nat} {s : Block aw}

/-- A refused token would stop every longer piece, so a schedule with pieces of any length that run is admissible. -/
theorem Schedule.admissible_of_running_pieces {sch : Schedule} (h : ∀ n, ∃ m t, n ≤ m ∧ sch.runFirst m s = .next t) :
    sch.Admissible s := by
  by_contra hnot
  obtain ⟨n, _, _, r, -, -, -, hstop⟩ := inadmissibleScheduleStopsAtAFirstToken aw sch s hnot
  obtain ⟨m, t, hm, ht⟩ := h (n + 1)
  rw [hstop m hm] at ht
  cases ht

/-- As `runTokensAt_append_of_next`, for the pieces of one schedule. -/
theorem Schedule.runFirst_of_append {sch : Schedule} {n m : Nat} {us : List Token} {t : Block aw}
    (hfirst : sch.first m = sch.first n ++ us) (ht : sch.runFirst n s = .next t) :
    sch.runFirst m s = runTokensAt us t := by
  rw [Schedule.runFirst, hfirst]
  exact runTokensAt_append_of_next ht us

/-! ### Pushes alone (70_reset_and_hazards.md R226) -/

/-- The first `n` tokens of a schedule of pushes push its first `n` bytes. -/
theorem runFirst_pushes (f : Nat → Byte) (n : Nat) (hr : s.hadReset = true) :
    (Schedule.infinite (fun n => makeToken 0x1 (f n))).runFirst n s = .next (pushBytes ((List.range n).map f) s) := by
  rw [Schedule.runFirst, ← runOpsAt_pushOps _ hr]
  refine runTokensAt_eq_runOpsAt ?_ s
  rw [Schedule.first, pushOps, List.map_map, List.map_map, List.map_map]
  exact List.map_congr_left (fun k _ => decode_makeToken_push (f k))

/-- Settles O10: every piece is a row of PUSH steps. -/
theorem pushOnlyScheduleIsAdmissible : Obligations.PushOnlyScheduleIsAdmissible := by
  intro aw f s _ hr
  refine ⟨fun n => ⟨_, runFirst_pushes f n hr⟩, fun n t ht => ?_⟩
  rw [runFirst_pushes f n hr] at ht
  cases ht
  exact ⟨by simp [pushBytes_head_toNat], pushBytes_tail _ s, pushBytes_delivered _ s⟩

/-! ### A DRAIN that does not end (70_reset_and_hazards.md R222) -/

/-- The tokens of POP.S, POP.R, POP.A and PUSH `f k` over and over, as the statement writes them. -/
def endlessDrainToken (f : Nat → Byte) (n : Nat) : Token :=
  if n % 4 = 0 then 0x200 else if n % 4 = 1 then 0x300 else if n % 4 = 2 then 0x400 else makeToken 0x1 (f (n / 4))

theorem endlessDrain_first_compare (f : Nat → Byte) (n : Nat) :
    (Schedule.infinite (endlessDrainToken f)).first (4 * n + 1) =
      (Schedule.infinite (endlessDrainToken f)).first (4 * n) ++ [0x200] := by
  simp [endlessDrainToken]

theorem endlessDrain_first_round (f : Nat → Byte) (n : Nat) :
    (Schedule.infinite (endlessDrainToken f)).first (4 * (n + 1)) =
      (Schedule.infinite (endlessDrainToken f)).first (4 * n) ++ [0x200, 0x300, 0x400, makeToken 0x1 (f n)] := by
  have hlast : (4 * n + 3) / 4 = n := by omega
  simp [Nat.mul_succ, endlessDrainToken, hlast]

/-- The next POP.S is admitted and finds a byte. -/
structure ReadyToRead (s : Block aw) : Prop where
  afterReset : s.hadReset = true
  idle : s.cphase = .idle
  nonempty : s.head ≠ s.tail

theorem ReadyToRead.runTokensAt_compare (h : ReadyToRead s) : runTokensAt [0x200] s = .next (samplePointers s) := by
  rw [runTokensAt_eq_runOpsAt (is := [.popS]) rfl, runOpsAt_singleton (execAt_popS_of_idle h.afterReset h.idle)]

/-- A round is a split read and a PUSH. -/
theorem ReadyToRead.runTokensAt_round (h : ReadyToRead s) (b : Byte) :
    runTokensAt [0x200, 0x300, 0x400, makeToken 0x1 b] s = .next (pushByte b (popByte s)) := by
  have hops : [0x200, 0x300, 0x400, makeToken 0x1 b].map decode =
      ([.popS, .popR, .popA] ++ [.push b] : List Instr).map .ok := by
    rw [List.map_cons, List.map_cons, List.map_cons, List.map_singleton, decode_makeToken_push]
    rfl
  rw [runTokensAt_eq_runOpsAt hops, runOpsAt_append_of_next (runOpsAt_split_read h.afterReset h.idle h.nonempty),
    ← popByte_eq_split h.nonempty, runOpsAt_singleton (execAt_push_of_reset b (by simpa using h.afterReset))]

/-- A round moves both pointers by one, so they stay apart. -/
theorem ReadyToRead.after_round (h : ReadyToRead s) (b : Byte) : ReadyToRead (pushByte b (popByte s)) where
  afterReset := by simpa using h.afterReset
  idle := by simp
  nonempty := by
    rw [pushByte_head, pushByte_tail, popByte_of_nonempty h.nonempty, advance_eq]
    exact fun heq => h.nonempty (add_right_cancel heq)

/-- After `n` rounds `n` bytes more are delivered, and the next comparison finds one. -/
theorem endlessDrain_rounds (f : Nat → Byte) (h : ReadyToRead s) (n : Nat) :
    ∃ t, (Schedule.infinite (endlessDrainToken f)).runFirst (4 * n) s = .next t ∧ ReadyToRead t ∧
      t.delivered.length = s.delivered.length + n := by
  induction n with
  | zero => exact ⟨s, rfl, h, rfl⟩
  | succ n ih =>
    obtain ⟨t, ht, hready, hlen⟩ := ih
    refine ⟨_, ?_, hready.after_round (f n), ?_⟩
    · rw [Schedule.runFirst_of_append (endlessDrain_first_round f n) ht, hready.runTokensAt_round]
    · rw [pushByte_delivered, popByte_delivered_length hready.nonempty, hlen, Nat.add_assoc]

/-- Settles O35: each piece lies within some number of rounds, and the token after `n` rounds is the comparison. -/
theorem drainNeedNotEnd : Obligations.DrainNeedNotEnd := by
  intro aw f s _ hr hp hne
  have hrounds := endlessDrain_rounds f ⟨hr, hp, hne⟩
  refine ⟨Schedule.admissible_of_running_pieces (fun n => ?_), fun n => ?_⟩
  · obtain ⟨t, ht, -, -⟩ := hrounds n
    exact ⟨4 * n, t, by omega, ht⟩
  · obtain ⟨t, ht, hready, hlen⟩ := hrounds n
    have hcompare := Schedule.runFirst_of_append (endlessDrain_first_compare f n) ht
    exact ⟨samplePointers t, hcompare.trans hready.runTokensAt_compare, samplePointers_sampled hready.nonempty, hlen⟩

end Sys2Proof.Machine
end

section
/-! SUPPORT. The first-in first-out invariant over runs, and deliveries in push order (70_reset_and_hazards.md R221). -/

namespace Sys2Proof.Machine

/-- At every index width the history after a run of operations with tokens explains the block after it. -/
protected theorem FifoInv.runOpsAt {aw : Nat} {pushed : List Byte} {is : List Instr} {s t : Block aw}
    (h : FifoInv pushed s) (hcore : ∀ i ∈ is, i.isCore = true) (ht : runOpsAt is s = .next t) :
    FifoInv (is.foldl (fun h i => historyAfter i h) pushed) t := by
  induction is generalizing pushed s with
  | nil => cases ht; exact h
  | cons i is ih =>
    obtain ⟨hi, his⟩ := List.forall_mem_cons.mp hcore
    obtain ⟨u, hu, hrest⟩ := runOpsAt_cons_next_iff.mp ht
    exact ih (h.execAt hi hu) his hrest

/-- Settles O52: the run after the RESET keeps `FifoInv` from the empty history on, and its positions are the ones asked for. -/
theorem deliveriesAreInPushOrder : Obligations.DeliveriesAreInPushOrder := by
  intro is s t hcore ht
  obtain ⟨u, hu, hrest⟩ := runOpsAt_cons_next_iff.mp (runOps_next_iff.mp ht).1
  cases hu
  obtain ⟨idx, hidx⟩ := ((fifoInv_resetBlock s.toBlock).runOpsAt hcore hrest).exists_deliveredAt
  exact ⟨idx, hidx.increasing, hidx.inRange, hidx.bytes⟩

end Sys2Proof.Machine
end

section
/-! SUPPORT. What RESET does to the trace, the schedule and the note that a RESET has happened: the model's own choices (log entries
4, 5, 6). -/

namespace Sys2Proof.Machine

/-- Settles O17: RESET has no guard, `resetBlock` empties the trace and notes the RESET, and the schedule is no part of the block. -/
theorem resetStartsANewTrace : Obligations.ResetStartsANewTrace := by
  intro s
  refine ⟨{ s with toBlock := resetBlock s.toBlock }, exec_of_next (execAt_reset s.toBlock), ?_, ?_, ?_⟩
  · exact resetBlock_trace s.toBlock
  · rfl
  · exact resetBlock_hadReset s.toBlock

end Sys2Proof.Machine
end
